-- ==== Sys2Proof/Word.lean ====
section
/-! DEFINITION. The units of data of the vcpu: bytes and 32-bit words (spec/00_scope.md R9, spec/10_state.md R20). -/

namespace Sys2Proof

/-- A byte is 8 bits (R9). -/
abbrev Byte := BitVec 8

/-- Every register value and every payload integer is a 32-bit two's-complement word (R9). -/
abbrev Word := BitVec 32

end Sys2Proof
end

