-- ==== Sys2Proof/Syntax.lean ====
section
/-! DEFINITION. The instructions of the vcpu as syntax: mnemonics, registers, operands, instructions, and the names of
the causes of the machine fault (spec/30_encoding.md, spec/00_scope.md R12). -/

namespace Sys2Proof

/-- The eighteen mnemonics, in the source's order (R62). The set is closed. -/
inductive Mnemonic
  | nop | mov | add | sub | mul | div | push | pop | apush | apop
  | jmp | jez | jnz | jlz | jgz | hwid | hlt | int
  deriving DecidableEq, Repr

/-- The six addressable registers (R10, R22). -/
inductive Reg
  | eax | ebx | ecx | edx | sp | ip
  deriving DecidableEq, Repr

/-- The operand types a 2-bit tag can name; 0 is reserved (R67). -/
inductive Tag
  | reserved | constant | register | memoryValue
  deriving DecidableEq, Repr

/-- An operand as syntax. A register payload is already resolved to a register (R97). Where it stands is no part of it:
`Extracted` adds that. -/
inductive Operand
  | const (v : Word)
  | reg (r : Reg)
  | mem (addr : Word)
  deriving DecidableEq, Repr

/-- The `info` of a raised fault. R12: it "names the cause for the reader only"; the machine records none of it. -/
inductive FaultInfo
  /-- A consulted flag field holds the reserved tag 0 (R67, R98). -/
  | invalidOperandType
  /-- MOV's destination tag is MemoryValue (R124). -/
  | invalidArgumentType
  /-- A register-id byte names no register (R97). -/
  | invalidRegister
  /-- An access outside 0..0xFFFF (R43). -/
  | outOfBounds
  /-- A pop found a count below 1 (R143). -/
  | stackUnderflow
  /-- A stack shift would leave memory, or a push found a negative count (R141, R142). -/
  | stackBounds
  /-- DIV with a zero divisor (R134). -/
  | divideByZero
  deriving DecidableEq, Repr

/-- An instruction as syntax, one constructor for each row of spec/opcode_table.json. `ff` is the whole
flag byte, kept because its unconsulted fields are free (R66). `nop` keeps its opcode byte, because every byte outside
the image of `OPC` decodes as NOP too (R64). The length is computed from the syntax (`Instr.len`). -/
inductive Instr
  | nop (op : Byte)
  | mov (ff : Byte) (dst src : Operand)
  | add (ff : Byte) (dst : Reg) (val : Operand)
  | sub (ff : Byte) (dst : Reg) (val : Operand)
  | mul (ff : Byte) (dst : Reg) (val : Operand)
  | div (ff : Byte) (dst : Reg) (val : Operand)
  | push (ff : Byte) (reg : Reg)
  | pop (ff : Byte) (reg : Reg)
  | apush
  | apop
  | jmp (ff : Byte) (dest : Operand)
  | jez (ff : Byte) (dest test : Operand)
  | jnz (ff : Byte) (dest test : Operand)
  | jlz (ff : Byte) (dest test : Operand)
  | jgz (ff : Byte) (dest test : Operand)
  | hwid
  | hlt
  | int (ff : Byte)
  deriving DecidableEq, Repr

/-- An extracted operand (R6, R95): the operand and `end`, the address just past its payload. -/
structure Extracted where
  operand : Operand
  endAddr : Int
  deriving DecidableEq, Repr

/-- What the decoder block returns of an instruction (R6, R95): `m`, `op`, `ff`, `ops` in stream order and `len`; and the
same instruction as syntax, which Execute dispatches on. -/
structure Decoded where
  m : Mnemonic
  op : Byte
  ff : Option Byte
  ops : List Extracted
  len : Nat
  instr : Instr
  deriving DecidableEq, Repr

end Sys2Proof
end

