-- ==== Sys2Proof/Config.lean ====
section
/-! DEFINITION. What an implementation of the vcpu fixes: the parameters the source gives (R7) and, as constants with no
body, the ones it leaves open (R8). Nothing in Lean can evaluate an open one, so a claim that is proved holds for
every choice of it. -/

namespace Sys2Proof

/-- `MEM_SIZE`: memory is fixed at 0x10000 bytes (R7, R30). -/
def Config.memSize : Nat := 0x10000

/-- `SP_RESET` (R7). -/
def Config.spReset : Word := 0xF000

/-- `IP_RESET` (R7). -/
def Config.ipReset : Word := 0

/-- A numbering of the opcodes and of the registers: R8's `OPC` and `RID`, both injective. -/
structure Numbering where
  opc : Mnemonic → Byte
  rid : Reg → Byte
  opc_injective : Function.Injective opc
  rid_injective : Function.Injective rid

/-- A free permutation of the bytes, from which `OPC` is read. Every injective map from the eighteen mnemonics to the
bytes extends to such a permutation, so nothing of the openness of R8 is lost (assumption log 1). -/
opaque Config.opcodeDraw : Equiv.Perm Byte

/-- A free permutation of the bytes, from which `RID` is read (assumption log 2). -/
opaque Config.registerIdDraw : Equiv.Perm Byte

theorem Mnemonic.toByte_injective :
    Function.Injective (fun m : Mnemonic => BitVec.ofNat 8 m.ctorIdx) := by
  intro m n h
  cases m <;> cases n <;> first | rfl | (revert h; decide)

theorem Reg.toByte_injective : Function.Injective (fun r : Reg => BitVec.ofNat 8 r.ctorIdx) := by
  intro m n h
  cases m <;> cases n <;> first | rfl | (revert h; decide)

/-- The machine's numbering: any injective `OPC` and any injective `RID` (R8, D1, D2). The position of a mnemonic or a
register in its type only says which point of the free permutation is read. -/
def Config.numbering : Numbering where
  opc m := Config.opcodeDraw (BitVec.ofNat 8 m.ctorIdx)
  rid r := Config.registerIdDraw (BitVec.ofNat 8 r.ctorIdx)
  opc_injective := Config.opcodeDraw.injective.comp Mnemonic.toByte_injective
  rid_injective := Config.registerIdDraw.injective.comp Reg.toByte_injective

/-- The two points at which ADD, SUB, MUL and DIV may read the old value of a destination that is IP (R8, R130). -/
inductive ArithDstRead
  | afterDstByte
  | afterInstruction
  deriving DecidableEq, Repr, Inhabited

/-- `ARITH_DST_READ`, open (D10, assumption log 3). -/
opaque Config.arithDstRead : ArithDstRead

/-- `IP_AFTER_FAULT`, a free draw (D7, assumption log 4): the value of `ip` after the fault that takes the given draw. -/
opaque Config.ipAfterFault : Nat → Word

end Sys2Proof
end

