-- ==== Sys2Proof/Decode.lean ====
section
/-! DEFINITION. The decoder block: flag fields, payload extraction, the decoder, total on any bytes, and the encoder
(spec/30_encoding.md, spec/40_fetch_decode.md R92 to R99). The decoder takes the bytes from the instruction's first
byte to the end of memory, or any prefix of them that is long enough: where they run out, the next byte lies outside
memory and reading it is out of bounds (R105). -/

namespace Sys2Proof

/-- The numbering the decoder and the encoder use. -/
def numbering : Numbering := Config.numbering

def Mnemonic.all : List Mnemonic :=
  [.nop, .mov, .add, .sub, .mul, .div, .push, .pop, .apush, .apop,
   .jmp, .jez, .jnz, .jlz, .jgz, .hwid, .hlt, .int]

def Reg.all : List Reg := [.eax, .ebx, .ecx, .edx, .sp, .ip]

/-- `OPC⁻¹` (R93): the mnemonic whose code is the byte, if there is one. -/
def Numbering.mnemonicOf (N : Numbering) (b : Byte) : Option Mnemonic :=
  Mnemonic.all.find? fun m => N.opc m == b

/-- `RegOf` (R22): the register whose id is the byte, if there is one. -/
def Numbering.regOf (N : Numbering) (b : Byte) : Option Reg :=
  Reg.all.find? fun r => N.rid r == b

/-- Declared argument counts (R63). -/
def argc : Mnemonic → Nat
  | .nop | .apush | .apop | .hwid | .hlt => 0
  | .push | .pop | .jmp | .int => 1
  | .mov | .add | .sub | .mul | .div | .jez | .jnz | .jlz | .jgz => 2

/-- `Field(ff, i) = ff[7-2i : 6-2i]` (R66). -/
def field (ff : Byte) (i : Nat) : BitVec 2 := ff.extractLsb' (6 - 2 * i) 2

/-- The operand-type tags (R67). -/
def tagOf (t : BitVec 2) : Tag :=
  if t = 1 then .constant else if t = 2 then .register else if t = 3 then .memoryValue else .reserved

/-- The 2-bit code of a tag (R67). -/
def Tag.code : Tag → BitVec 2
  | .reserved => 0
  | .constant => 1
  | .register => 2
  | .memoryValue => 3

/-- The tag in flag field `i`. -/
def tagAt (ff : Byte) (i : Nat) : Tag := tagOf (field ff i)

def Operand.tag : Operand → Tag
  | .const _ => .constant
  | .reg _ => .register
  | .mem _ => .memoryValue

/-- A 32-bit integer from its four bytes: big-endian, the first byte most significant (R40, R11). -/
def be32 (b0 b1 b2 b3 : Byte) : Word := b0 ++ b1 ++ b2 ++ b3

/-- The four bytes of a word, most significant first (R40, R11). -/
def be32Bytes (w : Word) : List Byte :=
  [w.extractLsb' 24 8, w.extractLsb' 16 8, w.extractLsb' 8 8, w.extractLsb' 0 8]

/-- `Next1` (R13). -/
def next1 : List Byte → Except FaultInfo (Byte × List Byte)
  | b :: bs => .ok (b, bs)
  | [] => .error .outOfBounds

/-- `Next4` (R13). -/
def next4 : List Byte → Except FaultInfo (Word × List Byte)
  | b0 :: b1 :: b2 :: b3 :: bs => .ok (be32 b0 b1 b2 b3, bs)
  | _ => .error .outOfBounds

/-- `ReadRaw` (R99): a register id read whatever the flag byte says, checked then and there (R97). -/
def readRaw (N : Numbering) (bs : List Byte) : Except FaultInfo (Reg × List Byte) := do
  let (b, bs) ← next1 bs
  match N.regOf b with
  | some r => .ok (r, bs)
  | none => .error .invalidRegister

/-- `ReadTyped(ff, i)` (R98). -/
def readTyped (N : Numbering) (ff : Byte) (i : Nat) (bs : List Byte) :
    Except FaultInfo (Operand × List Byte) :=
  match tagAt ff i with
  | .reserved => .error .invalidOperandType
  | .constant => do let (v, bs) ← next4 bs; .ok (.const v, bs)
  | .register => do let (r, bs) ← readRaw N bs; .ok (.reg r, bs)
  | .memoryValue => do let (v, bs) ← next4 bs; .ok (.mem v, bs)

/-- MOV's operands (R96): the destination's tag is checked before its payload is read. -/
def decodeMov (N : Numbering) (bs : List Byte) : Except FaultInfo (Instr × List Byte) := do
  let (ff, bs) ← next1 bs
  match tagAt ff 0 with
  | .reserved => .error .invalidOperandType
  | .memoryValue => .error .invalidArgumentType
  | .constant | .register =>
    let (dst, bs) ← readTyped N ff 0 bs
    let (src, bs) ← readTyped N ff 1 bs
    .ok (.mov ff dst src, bs)

/-- ADD, SUB, MUL, DIV (R96): a raw destination, field 0 not consulted, then a typed operand by field 1. -/
def decodeArith (N : Numbering) (mk : Byte → Reg → Operand → Instr) (bs : List Byte) :
    Except FaultInfo (Instr × List Byte) := do
  let (ff, bs) ← next1 bs
  let (r, bs) ← readRaw N bs
  let (val, bs) ← readTyped N ff 1 bs
  .ok (mk ff r val, bs)

/-- PUSH, POP (R96): a raw register, no flag field consulted. -/
def decodeStack (N : Numbering) (mk : Byte → Reg → Instr) (bs : List Byte) :
    Except FaultInfo (Instr × List Byte) := do
  let (ff, bs) ← next1 bs
  let (r, bs) ← readRaw N bs
  .ok (mk ff r, bs)

/-- JMP (R96). -/
def decodeJmp (N : Numbering) (bs : List Byte) : Except FaultInfo (Instr × List Byte) := do
  let (ff, bs) ← next1 bs
  let (dest, bs) ← readTyped N ff 0 bs
  .ok (.jmp ff dest, bs)

/-- JEZ, JNZ, JLZ, JGZ (R96). -/
def decodeCond (N : Numbering) (mk : Byte → Operand → Operand → Instr) (bs : List Byte) :
    Except FaultInfo (Instr × List Byte) := do
  let (ff, bs) ← next1 bs
  let (dest, bs) ← readTyped N ff 0 bs
  let (test, bs) ← readTyped N ff 1 bs
  .ok (mk ff dest test, bs)

/-- INT (R96, R72): the flag byte is read, the payload is not consumed. -/
def decodeInt (bs : List Byte) : Except FaultInfo (Instr × List Byte) := do
  let (ff, bs) ← next1 bs
  .ok (.int ff, bs)

/-- `Decode` (R92 to R96) under a given numbering: the instruction and the bytes after it, or the first fault met. A byte
that is the code of no mnemonic decodes as NOP (R64). -/
def decodeWith (N : Numbering) (bs : List Byte) : Except FaultInfo (Instr × List Byte) := do
  let (op, bs) ← next1 bs
  match (N.mnemonicOf op).getD .nop with
  | .nop => .ok (.nop op, bs)
  | .mov => decodeMov N bs
  | .add => decodeArith N .add bs
  | .sub => decodeArith N .sub bs
  | .mul => decodeArith N .mul bs
  | .div => decodeArith N .div bs
  | .push => decodeStack N .push bs
  | .pop => decodeStack N .pop bs
  | .apush => .ok (.apush, bs)
  | .apop => .ok (.apop, bs)
  | .jmp => decodeJmp N bs
  | .jez => decodeCond N .jez bs
  | .jnz => decodeCond N .jnz bs
  | .jlz => decodeCond N .jlz bs
  | .jgz => decodeCond N .jgz bs
  | .hwid => .ok (.hwid, bs)
  | .hlt => .ok (.hlt, bs)
  | .int => decodeInt bs

/-- The machine's decoder. -/
def decode (bs : List Byte) : Except FaultInfo (Instr × List Byte) := decodeWith numbering bs

/-- `L(tag)` (R69): the bytes of an operand's payload. -/
def Operand.payloadLen : Operand → Nat
  | .const _ => 4
  | .reg _ => 1
  | .mem _ => 4

/-- The length of an instruction in bytes (R61, R69). -/
def Instr.len : Instr → Nat
  | .nop _ | .apush | .apop | .hwid | .hlt => 1
  | .int _ => 2
  | .push _ _ | .pop _ _ => 3
  | .jmp _ dest => 2 + dest.payloadLen
  | .mov _ o0 o1 | .jez _ o0 o1 | .jnz _ o0 o1 | .jlz _ o0 o1 | .jgz _ o0 o1 =>
    2 + o0.payloadLen + o1.payloadLen
  | .add _ _ val | .sub _ _ val | .mul _ _ val | .div _ _ val => 3 + val.payloadLen

/-- The longest instruction: a MOV or conditional jump with two 4-byte payloads (R106). -/
def maxInstrBytes : Nat := 10

/-- The mnemonic an instruction executes as (R95's `m`). -/
def Instr.mnemonic : Instr → Mnemonic
  | .nop _ => .nop
  | .mov _ _ _ => .mov
  | .add _ _ _ => .add
  | .sub _ _ _ => .sub
  | .mul _ _ _ => .mul
  | .div _ _ _ => .div
  | .push _ _ => .push
  | .pop _ _ => .pop
  | .apush => .apush
  | .apop => .apop
  | .jmp _ _ => .jmp
  | .jez _ _ _ => .jez
  | .jnz _ _ _ => .jnz
  | .jlz _ _ _ => .jlz
  | .jgz _ _ _ => .jgz
  | .hwid => .hwid
  | .hlt => .hlt
  | .int _ => .int

/-- The operands the decoder extracts, in stream order (R95, R96). -/
def Instr.operands : Instr → List Operand
  | .nop _ | .apush | .apop | .hwid | .hlt | .int _ => []
  | .push _ r | .pop _ r => [.reg r]
  | .jmp _ dest => [dest]
  | .mov _ o0 o1 | .jez _ o0 o1 | .jnz _ o0 o1 | .jlz _ o0 o1 | .jgz _ o0 o1 => [o0, o1]
  | .add _ r val | .sub _ r val | .mul _ r val | .div _ r val => [.reg r, val]

/-- The flag byte, where the instruction has one (R94, R95). -/
def Instr.flagByte : Instr → Option Byte
  | .nop _ | .apush | .apop | .hwid | .hlt => none
  | .push ff _ | .pop ff _ | .jmp ff _ | .int ff => some ff
  | .mov ff _ _ | .jez ff _ _ | .jnz ff _ _ | .jlz ff _ _ | .jgz ff _ _ => some ff
  | .add ff _ _ | .sub ff _ _ | .mul ff _ _ | .div ff _ _ => some ff

/-- The opcode byte: NOP keeps the byte that was read (R64), every other instruction has its mnemonic's code. -/
def Instr.opcodeByte (N : Numbering) : Instr → Byte
  | .nop op => op
  | .mov _ _ _ => N.opc .mov
  | .add _ _ _ => N.opc .add
  | .sub _ _ _ => N.opc .sub
  | .mul _ _ _ => N.opc .mul
  | .div _ _ _ => N.opc .div
  | .push _ _ => N.opc .push
  | .pop _ _ => N.opc .pop
  | .apush => N.opc .apush
  | .apop => N.opc .apop
  | .jmp _ _ => N.opc .jmp
  | .jez _ _ _ => N.opc .jez
  | .jnz _ _ _ => N.opc .jnz
  | .jlz _ _ _ => N.opc .jlz
  | .jgz _ _ _ => N.opc .jgz
  | .hwid => N.opc .hwid
  | .hlt => N.opc .hlt
  | .int _ => N.opc .int

/-- Operands whose payloads stand one after the other from `c` on, each with the cursor after its payload (R13, R98). -/
def extract (c : Int) : List Operand → List Extracted
  | [] => []
  | o :: os => ⟨o, c + o.payloadLen⟩ :: extract (c + o.payloadLen) os

/-- R95's `Decoded` for an instruction at `a`: the payloads follow the opcode byte and the flag byte (R61). -/
def Decoded.of (N : Numbering) (a : Int) (i : Instr) : Decoded where
  m := i.mnemonic
  op := i.opcodeByte N
  ff := i.flagByte
  ops := extract (a + 2) i.operands
  len := i.len
  instr := i

/-- The payload of an operand (R67). -/
def Operand.bytes (N : Numbering) : Operand → List Byte
  | .const v => be32Bytes v
  | .reg r => [N.rid r]
  | .mem a => be32Bytes a

/-- The bytes of an instruction, in the layouts of R61. -/
def encodeWith (N : Numbering) : Instr → List Byte
  | .nop op => [op]
  | .mov ff dst src => N.opc .mov :: ff :: (dst.bytes N ++ src.bytes N)
  | .add ff dst val => N.opc .add :: ff :: N.rid dst :: val.bytes N
  | .sub ff dst val => N.opc .sub :: ff :: N.rid dst :: val.bytes N
  | .mul ff dst val => N.opc .mul :: ff :: N.rid dst :: val.bytes N
  | .div ff dst val => N.opc .div :: ff :: N.rid dst :: val.bytes N
  | .push ff r => [N.opc .push, ff, N.rid r]
  | .pop ff r => [N.opc .pop, ff, N.rid r]
  | .apush => [N.opc .apush]
  | .apop => [N.opc .apop]
  | .jmp ff dest => N.opc .jmp :: ff :: dest.bytes N
  | .jez ff dest test => N.opc .jez :: ff :: (dest.bytes N ++ test.bytes N)
  | .jnz ff dest test => N.opc .jnz :: ff :: (dest.bytes N ++ test.bytes N)
  | .jlz ff dest test => N.opc .jlz :: ff :: (dest.bytes N ++ test.bytes N)
  | .jgz ff dest test => N.opc .jgz :: ff :: (dest.bytes N ++ test.bytes N)
  | .hwid => [N.opc .hwid]
  | .hlt => [N.opc .hlt]
  | .int ff => [N.opc .int, ff]

/-- The machine's encoder. -/
def encode (i : Instr) : List Byte := encodeWith numbering i

/-- The bytes of an instruction word numbered as spec/opcode_table.json numbers it: byte `k` is bits `8k+7..8k`. Bits at
and above `nbits` are 0, up to the longest instruction. -/
def tableBytes (nbits w : Nat) : List Byte :=
  (List.range maxInstrBytes).map fun k => BitVec.ofNat 8 ((w % 2 ^ nbits) / 2 ^ (8 * k))

/-- What the machine's decoder reads from an instruction whose bits are `w`. -/
def decodeTableWord (nbits w : Nat) : Option Instr :=
  match decode (tableBytes nbits w) with
  | .ok (i, _) => some i
  | .error _ => none

end Sys2Proof
end

