-- ==== Sys2Proof/Machine/State.lean ====
section
/-! DEFINITION. The machine's state (spec/10_state.md R20), the reasons a step can stop, and the state after reset
(spec/70_reset_and_hazards.md R200). -/

namespace Sys2Proof.Machine

/-- Memory as (address, byte) pairs in one canonical form: addresses strictly rising, no entry equal to 0, which is what
an unlisted address reads as (R46: "Every other byte is zero at load"). -/
abbrev Memory := List Host.Cell

/-- All the state the spec gives the machine (R20), and one field of the model's own, `draws`. -/
structure State where
  eax : Word
  ebx : Word
  ecx : Word
  edx : Word
  sp : Word
  ip : Word
  halted : Bool
  faulted : Bool
  mem : Memory
  /-- The model's own: how many free values have been drawn (assumption log 4). -/
  draws : Nat
  deriving DecidableEq, Repr

/-- Why a step stops without a next state. -/
inductive Fault
  /-- Raised by `step` alone, on a halted machine: R90, "`Step` is defined only when `halted = 0`. When `halted = 1`, the
  engine has no step and the run is over". Safe: it is the spec's own end of a run. The spec's machine fault is NOT
  this: it is a next state (R183). -/
  | runIsOver
  deriving DecidableEq, Repr

/-- Why an instruction is refused. -/
inductive Refusal
  /-- Raised by `exec` for an instruction that has no meaning yet; every instruction has one. Safe. -/
  | notModelled (mnemonic : String)
  deriving DecidableEq, Repr

/-- The machine right after reset, with no image loaded (R200). -/
def State.reset : State where
  eax := 0
  ebx := 0
  ecx := 0
  edx := 0
  sp := Config.spReset
  ip := Config.ipReset
  halted := false
  faulted := false
  mem := []
  draws := 0

end Sys2Proof.Machine
end

