-- ==== Sys2Proof/Machine/Ops.lean ====
section
/-! DEFINITION. The named operations over memory and registers, the one operation that takes the machine fault, and the two
stack primitives (spec/00_scope.md R10 to R12, spec/20_memory.md, spec/43_stack.md R140 to R143). -/

namespace Sys2Proof.Machine

/-! ## Memory cells -/

/-- What an address that is not listed reads as: memory beyond the image is zero at load (R46, R200). -/
def Memory.unlisted : Byte := 0

/-- The byte at an address. -/
def Memory.read : Memory → Nat → Byte
  | [], _ => Memory.unlisted
  | (k, v) :: m, a => if k = a then v else Memory.read m a

/-- Drop the entry of an address. -/
def Memory.erase (m : Memory) (a : Nat) : Memory := m.filter fun c => c.1 != a

/-- Put an entry where the rising order of the addresses wants it. -/
def Memory.insert : Memory → Nat → Byte → Memory
  | [], a, b => [(a, b)]
  | c :: m, a, b => if a < c.1 then (a, b) :: c :: m else c :: Memory.insert m a b

/-- Store a byte at an address, keeping the canonical form. -/
def Memory.write (m : Memory) (a : Nat) (b : Byte) : Memory :=
  if b = Memory.unlisted then m.erase a else (m.erase a).insert a b

/-- The `n` bytes from address `a` up. -/
def Memory.readBytes (m : Memory) (a : Nat) : Nat → List Byte
  | 0 => []
  | n + 1 => m.read a :: Memory.readBytes m (a + 1) n

/-- Store bytes from address `a` up. -/
def Memory.writeBytes (m : Memory) (a : Nat) : List Byte → Memory
  | [] => m
  | b :: bs => Memory.writeBytes (m.write a b) (a + 1) bs

/-- The big-endian word whose most significant byte is at `a` (R40). -/
def Memory.word (m : Memory) (a : Nat) : Word :=
  be32 (m.read a) (m.read (a + 1)) (m.read (a + 2)) (m.read (a + 3))

/-- The canonical form: addresses strictly rising and inside memory, no entry that an unlisted address would read as. -/
abbrev Memory.wf (m : Memory) : Prop :=
  m.Pairwise (fun c d => c.1 < d.1) ∧ ∀ c ∈ m, c.1 < Config.memSize ∧ c.2 ≠ Memory.unlisted

/-! ## Checked accesses -/

/-- `InBounds(a, n)` (R11, R43), on unbounded integers (D13). -/
abbrev inBounds (a n : Int) : Prop := 0 ≤ a ∧ a + n ≤ Config.memSize

/-- `MemRead(a, 1)` (R11). -/
def memRead1 (m : Memory) (a : Int) : Except FaultInfo Byte :=
  if inBounds a 1 then .ok (m.read a.toNat) else .error .outOfBounds

/-- `MemRead(a, 4)` (R11). -/
def memRead4 (m : Memory) (a : Int) : Except FaultInfo Word :=
  if inBounds a 4 then .ok (m.word a.toNat) else .error .outOfBounds

/-- `MemWrite(a, 1, b)` (R11). -/
def memWrite1 (m : Memory) (a : Int) (b : Byte) : Except FaultInfo Memory :=
  if inBounds a 1 then .ok (m.write a.toNat b) else .error .outOfBounds

/-- `MemWrite(a, 4, v)` (R11): most significant byte at the lowest address. -/
def memWrite4 (m : Memory) (a : Int) (v : Word) : Except FaultInfo Memory :=
  if inBounds a 4 then .ok (m.writeBytes a.toNat (be32Bytes v)) else .error .outOfBounds

/-- `MemMove(dst, src, len)` (R47): both ranges are checked before any byte is written; the source bytes are all read
first, so overlapping ranges are copied as through a temporary buffer. -/
def memMove (m : Memory) (dst src len : Int) : Except FaultInfo Memory :=
  if 0 ≤ len ∧ inBounds src len ∧ inBounds dst len then
    .ok (m.writeBytes dst.toNat (m.readBytes src.toNat len.toNat))
  else .error .stackBounds

/-! ## Registers -/

/-- `x[r]` (R10); `ip` and `sp` are the same storage as `x[IP]` and `x[SP]`. -/
def State.reg (s : State) : Reg → Word
  | .eax => s.eax
  | .ebx => s.ebx
  | .ecx => s.ecx
  | .edx => s.edx
  | .sp => s.sp
  | .ip => s.ip

/-- `x[r] <- v` (R10). No register is hard-wired (R21). -/
def State.setReg (s : State) (r : Reg) (v : Word) : State :=
  match r with
  | .eax => { s with eax := v }
  | .ebx => { s with ebx := v }
  | .ecx => { s with ecx := v }
  | .edx => { s with edx := v }
  | .sp => { s with sp := v }
  | .ip => { s with ip := v }

/-- Replace memory. -/
def State.setMem (s : State) (m : Memory) : State := { s with mem := m }

/-- `wrap32` (R9): the word congruent to the integer modulo 2^32. -/
def wrap32 (n : Int) : Word := BitVec.ofInt 32 n

/-! ## The machine fault -/

/-- `raise Fault(info)` (R12, R183): `halted` and `faulted` are set, `ip` becomes the free draw, nothing else changes.
There is one kind of fault and no cause is recorded (R180), so `info` is not used. There is no return from a fault
(R186): a halted machine has no step. -/
def State.raiseFault (s : State) (_info : FaultInfo) : State :=
  { s with halted := true, faulted := true, ip := Config.ipAfterFault s.draws, draws := s.draws + 1 }

/-- End an instruction whose writes all come after its last check: its effect, or the fault taken from `s` (R184). -/
def finish (s : State) : Except FaultInfo State → Host.Outcome State Fault Refusal
  | .ok t => .next t
  | .error info => .next (s.raiseFault info)

/-- HLT's effect on the status flags (R171). -/
def State.halt (s : State) : State := { s with halted := true }

/-! ## The stack primitives -/

/-- `Push(v)` (R141, R142). -/
def push (v : Word) (s : State) : Except FaultInfo State := do
  let count ← memRead4 s.mem s.sp.toInt
  if count.toInt < 0 then .error .stackBounds
  else
    let m ← memMove s.mem (s.sp.toInt + 8) (s.sp.toInt + 4) (4 * count.toInt)
    let m ← memWrite4 m s.sp.toInt (wrap32 (count.toInt + 1))
    let m ← memWrite4 m (s.sp.toInt + 4) v
    .ok (s.setMem m)

/-- `Pop()` (R143): the popped word and the state after it. -/
def pop (s : State) : Except FaultInfo (Word × State) := do
  let count ← memRead4 s.mem s.sp.toInt
  if count.toInt < 1 then .error .stackUnderflow
  else
    let v ← memRead4 s.mem (s.sp.toInt + 4)
    let m ← memMove s.mem (s.sp.toInt + 4) (s.sp.toInt + 8) (4 * (count.toInt - 1))
    let m ← memWrite4 m s.sp.toInt (wrap32 (count.toInt - 1))
    .ok (v, s.setMem m)

end Sys2Proof.Machine
end

