-- ==== Sys2Proof/Machine/Operands.lean ====
section
/-! DEFINITION. Operand evaluation: every operand form, and where an operand that names IP is read
(spec/40_fetch_decode.md R100 to R102, spec/42_arithmetic.md R130).

The meanings run on the state the step hands to Execute (R90): there `ip` is already `a + len`, the address just past
the instruction at `a`. The last operand ends there, so its `end` is `ip`; the first of two operands ends where the
second one's payload begins. These are the `end`s the decoder block reports (R95), computed again from `ip`, because
Execute is given the instruction as syntax. -/

namespace Sys2Proof.Machine

/-- `sext_32` (R9). -/
def sext32 (b : Byte) : Word := b.signExtend 32

/-- `trunc_8(v) = v[7:0]` (R9). -/
def trunc8 (v : Word) : Byte := v.extractLsb' 0 8

/-- `end` of an instruction's last operand (R95, R101). -/
def lastEnd (s : State) : Word := s.ip

/-- `end` of the first of two operands (R95, R101). -/
def firstEnd (s : State) (second : Operand) : Word := s.ip - BitVec.ofNat 32 second.payloadLen

/-- `Eval(o)` (R100) for an operand that ends at `endAddr`: IP reads as that address (R101); a MemoryValue is the single
signed byte at its address. -/
def eval (s : State) (endAddr : Word) : Operand → Except FaultInfo Word
  | .const v => .ok v
  | .reg r => .ok (if r = .ip then endAddr else s.reg r)
  | .mem a => (memRead1 s.mem a.toInt).map sext32

/-- `ARITH_DST_READ`, the open parameter of R130. -/
def arithDstRead : ArithDstRead := Config.arithDstRead

/-- The old value of the destination of ADD, SUB, MUL or DIV (R130). -/
def arithOld (s : State) (r : Reg) (val : Operand) : Word :=
  if r = .ip then
    match arithDstRead with
    | .afterDstByte => firstEnd s val
    | .afterInstruction => lastEnd s
  else s.reg r

end Sys2Proof.Machine
end

