-- ==== Sys2Proof/Machine/Arithmetic.lean ====
section
/-! DEFINITION. ADD, SUB, MUL and DIV (spec/42_arithmetic.md). Operands are read as signed integers, the result is exact and
then wrapped. -/

namespace Sys2Proof.Machine

/-- The form common to the four (R130): read the old value, evaluate `val`, then write. -/
def execArith (f : Word → Word → Except FaultInfo Word) (r : Reg) (val : Operand) (s : State) :
    Host.Outcome State Fault Refusal :=
  finish s do
    let v ← eval s (lastEnd s) val
    let w ← f (arithOld s r val) v
    .ok (s.setReg r w)

/-- R131. -/
def addWords (old v : Word) : Except FaultInfo Word := .ok (wrap32 (old.toInt + v.toInt))

/-- R132. -/
def subWords (old v : Word) : Except FaultInfo Word := .ok (wrap32 (old.toInt - v.toInt))

/-- R133. -/
def mulWords (old v : Word) : Except FaultInfo Word := .ok (wrap32 (old.toInt * v.toInt))

/-- R134: the quotient truncates toward zero; only -2^31 by -1 wraps. -/
def divWords (old v : Word) : Except FaultInfo Word :=
  if v = 0 then .error .divideByZero else .ok (wrap32 (old.toInt.tdiv v.toInt))

/-- ADD (R131). -/
def execAdd (r : Reg) (val : Operand) (s : State) : Host.Outcome State Fault Refusal :=
  execArith addWords r val s

/-- SUB (R132). -/
def execSub (r : Reg) (val : Operand) (s : State) : Host.Outcome State Fault Refusal :=
  execArith subWords r val s

/-- MUL (R133). -/
def execMul (r : Reg) (val : Operand) (s : State) : Host.Outcome State Fault Refusal :=
  execArith mulWords r val s

/-- DIV (R134). -/
def execDiv (r : Reg) (val : Operand) (s : State) : Host.Outcome State Fault Refusal :=
  execArith divWords r val s

end Sys2Proof.Machine
end

