-- ==== Sys2Proof/Machine/Flags.lean ====
section
/-! DEFINITION. The machine has no condition codes (spec/10_state.md R29): a conditional jump tests an operand's value
directly. These are the four tests (spec/44_control.md R162 to R165). The two status flags `halted` and `faulted` are
set in Machine/Ops.lean, and no instruction reads them (R173). -/

namespace Sys2Proof.Machine

/-- `cond_JEZ(v) = (v = 0)` (R162). -/
def condJez (v : Word) : Bool := v.toInt == 0

/-- `cond_JNZ(v) = (v ≠ 0)` (R163). -/
def condJnz (v : Word) : Bool := v.toInt != 0

/-- `cond_JLZ(v) = (v < 0)`, signed (R164). -/
def condJlz (v : Word) : Bool := decide (v.toInt < 0)

/-- `cond_JGZ(v) = (v > 0)`, signed (R165). -/
def condJgz (v : Word) : Bool := decide (v.toInt > 0)

end Sys2Proof.Machine
end

