-- ==== Sys2Proof/Machine/Control.lean ====
section
/-! DEFINITION. JMP, JEZ, JNZ, JLZ and JGZ (spec/44_control.md). A jump's target is absolute, and it is checked and
wrapped at the next fetch only. -/

namespace Sys2Proof.Machine

/-- JMP (R160). -/
def execJmp (dest : Operand) (s : State) : Host.Outcome State Fault Refusal :=
  finish s do
    let t ← eval s (lastEnd s) dest
    .ok (s.setReg .ip t)

/-- The form common to the conditional jumps (R161): both operands are evaluated, taken or not. -/
def condJump (cond : Word → Bool) (dest test : Operand) (s : State) : Host.Outcome State Fault Refusal :=
  finish s do
    let t ← eval s (firstEnd s test) dest
    let tv ← eval s (lastEnd s) test
    .ok (if cond tv then s.setReg .ip t else s)

/-- JEZ (R162). -/
def execJez (dest test : Operand) (s : State) : Host.Outcome State Fault Refusal := condJump condJez dest test s

/-- JNZ (R163). -/
def execJnz (dest test : Operand) (s : State) : Host.Outcome State Fault Refusal := condJump condJnz dest test s

/-- JLZ (R164). -/
def execJlz (dest test : Operand) (s : State) : Host.Outcome State Fault Refusal := condJump condJlz dest test s

/-- JGZ (R165). -/
def execJgz (dest test : Operand) (s : State) : Host.Outcome State Fault Refusal := condJump condJgz dest test s

end Sys2Proof.Machine
end

