-- ==== Sys2Proof/Machine/Move.lean ====
section
/-! DEFINITION. NOP and MOV (spec/41_nop_mov.md). -/

namespace Sys2Proof.Machine

/-- NOP, and every byte that is no mnemonic's code: `skip` (R120, R64). -/
def execNop (s : State) : Host.Outcome State Fault Refusal := .next s

/-- MOV's write (R121): the whole word to a register (R122), or the low byte to memory (R123). A MemoryValue destination
never leaves the decoder (R124); the term still raises the fault R124 names. -/
def movWrite (s : State) (v : Word) : Operand → Except FaultInfo State
  | .reg r => .ok (s.setReg r v)
  | .const t => do let m ← memWrite1 s.mem t.toInt (trunc8 v); .ok (s.setMem m)
  | .mem _ => .error .invalidArgumentType

/-- MOV (R121). -/
def execMov (dst src : Operand) (s : State) : Host.Outcome State Fault Refusal :=
  finish s do
    let v ← eval s (lastEnd s) src
    movWrite s v dst

end Sys2Proof.Machine
end

