-- ==== Sys2Proof/Machine/Stack.lean ====
section
/-! DEFINITION. PUSH, POP, APUSH and APOP (spec/43_stack.md R144 to R147). -/

namespace Sys2Proof.Machine

/-- PUSH (R144). -/
def execPush (r : Reg) (s : State) : Host.Outcome State Fault Refusal :=
  finish s do
    let v ← eval s (lastEnd s) (.reg r)
    push v s

/-- POP (R145): the pop is done at the old `sp`, then the register is written. -/
def execPop (r : Reg) (s : State) : Host.Outcome State Fault Refusal :=
  finish s do
    let (v, t) ← pop s
    .ok (t.setReg r v)

/-- Push registers one after the other. A push that faults ends the instruction; the ones before it stay done (R146). -/
def pushAll : List Reg → State → Host.Outcome State Fault Refusal
  | [], s => .next s
  | r :: rs, s =>
    match push (s.reg r) s with
    | .ok t => pushAll rs t
    | .error info => .next (s.raiseFault info)

/-- Pop registers one after the other. A pop that faults ends the instruction; the ones before it stay done (R147). -/
def popAll : List Reg → State → Host.Outcome State Fault Refusal
  | [], s => .next s
  | r :: rs, s =>
    match pop s with
    | .ok (v, t) => popAll rs (t.setReg r v)
    | .error info => .next (s.raiseFault info)

/-- APUSH (R146): EDX, ECX, EBX, EAX in that order. -/
def execApush (s : State) : Host.Outcome State Fault Refusal := pushAll [.edx, .ecx, .ebx, .eax] s

/-- APOP (R147): EAX, EBX, ECX, EDX in that order. -/
def execApop (s : State) : Host.Outcome State Fault Refusal := popAll [.eax, .ebx, .ecx, .edx] s

end Sys2Proof.Machine
end

