-- ==== Sys2Proof/Machine/System.lean ====
section
/-! DEFINITION. HWID, HLT and INT (spec/45_system.md). -/

namespace Sys2Proof.Machine

/-- HWID: `skip`; it returns no identification value (R170). -/
def execHwid (s : State) : Host.Outcome State Fault Refusal := .next s

/-- HLT: `halted <- 1`, `faulted` stays as it is, `ip` stays past the instruction (R171). -/
def execHlt (s : State) : Host.Outcome State Fault Refusal := .next s.halt

/-- INT: `skip`; it raises no interrupt and saves nothing (R172). -/
def execInt (s : State) : Host.Outcome State Fault Refusal := .next s

end Sys2Proof.Machine
end

