-- ==== Sys2Proof/Machine/Dispatch.lean ====
section
/-! DEFINITION. Execute(d) (spec/40_fetch_decode.md R90): one arm for each instruction. It runs on the state in which `ip`
is already the address just past the instruction. -/

namespace Sys2Proof.Machine

def exec (i : Instr) (s : State) : Host.Outcome State Fault Refusal :=
  match i with
  | .nop _ => Sys2Proof.Machine.execNop s
  | .mov _ dst src => Sys2Proof.Machine.execMov dst src s
  | .add _ dst val => Sys2Proof.Machine.execAdd dst val s
  | .sub _ dst val => Sys2Proof.Machine.execSub dst val s
  | .mul _ dst val => Sys2Proof.Machine.execMul dst val s
  | .div _ dst val => Sys2Proof.Machine.execDiv dst val s
  | .push _ r => Sys2Proof.Machine.execPush r s
  | .pop _ r => Sys2Proof.Machine.execPop r s
  | .apush => Sys2Proof.Machine.execApush s
  | .apop => Sys2Proof.Machine.execApop s
  | .jmp _ dest => Sys2Proof.Machine.execJmp dest s
  | .jez _ dest test => Sys2Proof.Machine.execJez dest test s
  | .jnz _ dest test => Sys2Proof.Machine.execJnz dest test s
  | .jlz _ dest test => Sys2Proof.Machine.execJlz dest test s
  | .jgz _ dest test => Sys2Proof.Machine.execJgz dest test s
  | .hwid => Sys2Proof.Machine.execHwid s
  | .hlt => Sys2Proof.Machine.execHlt s
  | .int _ => Sys2Proof.Machine.execInt s

end Sys2Proof.Machine
end

