-- ==== Sys2Proof/Machine/Fetch.lean ====
section
/-! DEFINITION. What one step does around Execute: the wrap of `ip`, the fetch and decode of the instruction at `ip`, and the
advance of `ip` past it (spec/40_fetch_decode.md R90 to R92, R103, R105). -/

namespace Sys2Proof.Machine

/-- R91: an `ip` at or above `MEM_SIZE`, compared signed, becomes 0. -/
def wrapIp (s : State) : State := if s.ip.toInt ≥ Config.memSize then s.setReg .ip 0 else s

/-- The bytes from `a` on that the decoder can come to read: up to the longest instruction (R106), none past the end of
memory (R105). -/
def fetchWindow (m : Memory) (a : Nat) : List Byte :=
  m.readBytes a (min maxInstrBytes (Config.memSize - a))

/-- The instruction at `a`, as syntax: out of bounds at once where the opcode byte is (R92). -/
def decodeAt (m : Memory) (a : Int) : Except FaultInfo Instr :=
  if inBounds a 1 then (decode (fetchWindow m a.toNat)).map (·.1) else .error .outOfBounds

/-- The decoder block, `Decode(mem, a)` (R6, R95): a function of memory and the address alone. -/
def decodeBlock (m : Memory) (a : Int) : Except FaultInfo Decoded := (decodeAt m a).map (Decoded.of numbering a)

/-- `ip <- a + d.len` (R90, R103). -/
def advance (len : Nat) (s : State) : State := s.setReg .ip (wrap32 (s.ip.toInt + len))

/-- Where an instruction of any length can be placed so that the next step fetches it: the fetch address itself if ten
bytes fit there, else address 0. -/
def placeAddr (s : State) : Word :=
  if inBounds (wrapIp s).ip.toInt maxInstrBytes then (wrapIp s).ip else 0

/-- The state with the bytes placed where the next step fetches: a running machine, `ip` at the placed bytes. -/
def placeBytes (s : State) (bs : List Byte) : State :=
  { s with halted := false, ip := placeAddr s, mem := s.mem.writeBytes (placeAddr s).toNat bs }

end Sys2Proof.Machine
end

