-- ==== Sys2Proof/Machine/Step.lean ====
section
/-! DEFINITION. The engine's step (spec/40_fetch_decode.md R90), and where the next instruction is fetched from. -/

namespace Sys2Proof.Machine

/-- `Step()` (R90): no step on a halted machine; wrap `ip`, decode, advance `ip`, execute. A decode fault is taken from
the state at the start of the step (R108). -/
def step (s : State) : Host.Outcome State Fault Refusal :=
  if s.halted then .fault .runIsOver
  else
    match decodeBlock s.mem (wrapIp s).ip.toInt with
    | .error info => .next ((wrapIp s).raiseFault info)
    | .ok d => exec d.instr (advance d.len (wrapIp s))

/-- `s` with an instruction word, numbered as spec/opcode_table.json numbers it, stored where the next step fetches. -/
def State.withFetchWord (s : State) (nbits w : Nat) : State := placeBytes s (tableBytes nbits w)

end Sys2Proof.Machine
end

