-- ==== Sys2Proof/Machine/Assembler.lean ====
section
/-! DEFINITION. The assembler's syntax and its encoding output (spec/30_encoding.md R80 to R88), which define the binary
format. The engine does not depend on this file. The assembler's passes and its caching are out of scope
(spec/00_scope.md R5), so this is one function from source lines to the image of the final pass. -/

namespace Sys2Proof.Machine

/-- What an assembler does with operands beyond `argc` (`ASM_EXTRA_OPERANDS`, D23). -/
inductive ExtraOperands
  | ignore
  | error
  deriving DecidableEq, Repr

/-- What the assembler is given: the numbering, and the two open choices of D23. -/
structure AsmParams where
  numbering : Numbering
  extra : ExtraOperands
  /-- `ASM_LEGAL_TYPES`: whether the ISA Table allows the tag at an operand position. -/
  legal : Mnemonic → Nat → Tag → Bool

/-- The assembly errors (R86), and the one that R82's validation needs. -/
inductive AsmFault
  | duplicateLabel
  | unknownOpcode
  | wrongArgumentCount
  | unrecognizedOperand
  | undefinedLabel
  | illegalOperandType
  deriving DecidableEq, Repr

/-- An operand's integer: a literal, or a label's name (R82, R84). -/
inductive AsmValue
  | literal (v : Word)
  | label (name : List Char)
  deriving DecidableEq, Repr

/-- A classified operand (R82). -/
inductive AsmOperand
  | reg (r : Reg)
  | const (v : AsmValue)
  | mem (v : AsmValue)
  deriving DecidableEq, Repr

/-- A source line (R80). -/
inductive AsmLine
  | blank
  | label (name : List Char)
  | instr (m : Mnemonic) (ops : List AsmOperand)
  deriving DecidableEq, Repr

/-! ## Tokens (R80, R81) -/

def isBlankChar (c : Char) : Bool := c == ' ' || c == '\t' || c == '\r'

def trim (cs : List Char) : List Char :=
  ((cs.dropWhile isBlankChar).reverse.dropWhile isBlankChar).reverse

/-- Split at white space; `acc` is the token being read, backwards. -/
def splitBlank (acc : List Char) : List Char → List (List Char)
  | [] => if acc.isEmpty then [] else [acc.reverse]
  | c :: cs =>
    if isBlankChar c then
      if acc.isEmpty then splitBlank [] cs else acc.reverse :: splitBlank [] cs
    else splitBlank (c :: acc) cs

/-- Strip a token's trailing comma separator (R81). -/
def stripComma (tok : List Char) : List Char :=
  match tok.reverse with
  | ',' :: rest => rest.reverse
  | _ => tok

/-- The tokens of a line (R81). DESIGN CHOICE, where R81 is silent (assumption log 18): the comma is stripped from the end of
every token, so a comma that stands alone between blanks leaves an empty token, which still counts as an operand. It is
an operand of no class, unless a line that is only `:` has declared the empty name (`labelOf`). -/
def tokens (line : List Char) : List (List Char) := (splitBlank [] line).map stripComma

def upper (cs : List Char) : List Char := cs.map Char.toUpper

def mnemonicName : Mnemonic → List Char
  | .nop => ['N', 'O', 'P']
  | .mov => ['M', 'O', 'V']
  | .add => ['A', 'D', 'D']
  | .sub => ['S', 'U', 'B']
  | .mul => ['M', 'U', 'L']
  | .div => ['D', 'I', 'V']
  | .push => ['P', 'U', 'S', 'H']
  | .pop => ['P', 'O', 'P']
  | .apush => ['A', 'P', 'U', 'S', 'H']
  | .apop => ['A', 'P', 'O', 'P']
  | .jmp => ['J', 'M', 'P']
  | .jez => ['J', 'E', 'Z']
  | .jnz => ['J', 'N', 'Z']
  | .jlz => ['J', 'L', 'Z']
  | .jgz => ['J', 'G', 'Z']
  | .hwid => ['H', 'W', 'I', 'D']
  | .hlt => ['H', 'L', 'T']
  | .int => ['I', 'N', 'T']

def regName : Reg → List Char
  | .eax => ['E', 'A', 'X']
  | .ebx => ['E', 'B', 'X']
  | .ecx => ['E', 'C', 'X']
  | .edx => ['E', 'D', 'X']
  | .sp => ['S', 'P']
  | .ip => ['I', 'P']

/-- Mnemonics are looked up without regard to case (R81). -/
def mnemonicNamed (tok : List Char) : Option Mnemonic := Mnemonic.all.find? fun m => mnemonicName m == upper tok

/-- Register names match without regard to case (R82). -/
def regNamed (tok : List Char) : Option Reg := Reg.all.find? fun r => regName r == upper tok

/-! ## Integer literals (R83) -/

def digitValue (c : Char) : Option Nat :=
  if '0' ≤ c ∧ c ≤ '9' then some (c.toNat - 48)
  else if 'a' ≤ c ∧ c ≤ 'f' then some (c.toNat - 87)
  else if 'A' ≤ c ∧ c ≤ 'F' then some (c.toNat - 55)
  else none

/-- Read digits of a base after those already worth `acc`. -/
def digitsFrom (base acc : Nat) : List Char → Option Nat
  | [] => some acc
  | c :: cs =>
    match digitValue c with
    | some d => if d < base then digitsFrom base (base * acc + d) cs else none
    | none => none

def digits (base : Nat) (cs : List Char) : Option Nat := if cs.isEmpty then none else digitsFrom base 0 cs

/-- Decimal, `0x` hexadecimal, or octal after a leading 0. -/
def magnitude : List Char → Option Nat
  | '0' :: 'x' :: cs => digits 16 cs
  | '0' :: 'X' :: cs => digits 16 cs
  | '0' :: c :: cs => digits 8 (c :: cs)
  | cs => digits 10 cs

/-- An integer literal with an optional sign, rejected outside the signed 32-bit range. -/
def literal (cs : List Char) : Option Word :=
  let n : Option Int :=
    match cs with
    | '-' :: rest => (magnitude rest).map fun n => -(n : Int)
    | '+' :: rest => (magnitude rest).map fun n => (n : Int)
    | rest => (magnitude rest).map fun n => (n : Int)
  match n with
  | some n => if -0x80000000 ≤ n ∧ n ≤ 0x7FFFFFFF then some (BitVec.ofInt 32 n) else none
  | none => none

/-! ## Classification (R82) -/

/-- The text inside a bracket-wrapped token. -/
def unwrap (tok : List Char) : Option (List Char) :=
  match tok with
  | '[' :: rest =>
    match rest.reverse with
    | ']' :: inner => some inner.reverse
    | _ => none
  | _ => none

/-- A label name where one is declared, else a literal. -/
def constValue (labels : List (List Char)) (tok : List Char) : Option AsmValue :=
  if labels.contains tok then some (.label tok) else (literal tok).map .literal

/-- R82's classes in order. DESIGN CHOICE, where R84 speaks of an undefined label and R82 and R86 of an unrecognized operand
(assumption log 18): a bare name that is no register, no declared label and no literal is an unrecognized operand; the
same name in brackets is a MemoryValue whose label is undefined. -/
def classify (labels : List (List Char)) (tok : List Char) : Option AsmOperand :=
  match regNamed tok with
  | some r => some (.reg r)
  | none =>
    match unwrap tok with
    | some inner => some (.mem ((constValue labels inner).getD (.label inner)))
    | none => (constValue labels tok).map .const

def AsmOperand.tag : AsmOperand → Tag
  | .reg _ => .register
  | .const _ => .constant
  | .mem _ => .memoryValue

/-- The legal types of an operand position: the two the source gives, and the open rest (R82, D23). DESIGN CHOICE for MOV's
destination (assumption log 17): R82 counts its set {Register, Constant} among those the assembler validates with, and
also says that the interpreter enforces it, and R124 speaks of `MOV [x], y` as an assembler form that faults when
executed; this assembler rejects that form. `AsmLine.emit` and the decoder still say what its bytes are and do. -/
def legalType (P : AsmParams) (m : Mnemonic) (k : Nat) (t : Tag) : Bool :=
  match m, k with
  | .mov, 0 => t == .register || t == .constant
  | .jez, 1 | .jnz, 1 | .jlz, 1 | .jgz, 1 => t == .register
  | _, _ => P.legal m k t

def legalFrom (P : AsmParams) (m : Mnemonic) (k : Nat) : List AsmOperand → Bool
  | [] => true
  | o :: os => legalType P m k o.tag && legalFrom P m (k + 1) os

/-- The operands of an instruction line: their number (R81), their classes (R82), their legality. -/
def parseOperands (P : AsmParams) (labels : List (List Char)) (m : Mnemonic) (toks : List (List Char)) :
    Except AsmFault AsmLine :=
  if toks.length < argc m ∨ (argc m < toks.length ∧ P.extra = .error) then .error .wrongArgumentCount
  else
    match (toks.take (argc m)).mapM (classify labels) with
    | none => .error .unrecognizedOperand
    | some ops => if legalFrom P m 0 ops then .ok (.instr m ops) else .error .illegalOperandType

/-- The name a label line declares (R80): the remainder of the line. DESIGN CHOICE, where R80 is silent (assumption log 18):
the name is trimmed, and it may be empty; a line that is only `:` declares the empty name, and an empty token and `[]`
then refer to it. -/
def labelOf (line : List Char) : Option (List Char) :=
  match trim line with
  | ':' :: name => some (trim name)
  | _ => none

def parseLine (P : AsmParams) (labels : List (List Char)) (line : List Char) : Except AsmFault AsmLine :=
  match labelOf line with
  | some name => .ok (.label name)
  | none =>
    match tokens line with
    | [] => .ok .blank
    | tok :: toks =>
      match mnemonicNamed tok with
      | none => .error .unknownOpcode
      | some m => parseOperands P labels m toks

/-! ## Emission (R84, R85) -/

def AsmOperand.size : AsmOperand → Nat
  | .reg _ => 1
  | .const _ => 4
  | .mem _ => 4

/-- The bytes a line emits, counted: opcode, flag byte if `argc > 0`, payloads. -/
def AsmLine.size : AsmLine → Nat
  | .blank => 0
  | .label _ => 0
  | .instr m ops => 1 + (if argc m = 0 then 0 else 1) + (ops.map AsmOperand.size).sum

/-- The offset of every declared label: that of the instruction after it (R84). -/
def labelOffsets (at_ : Nat) : List AsmLine → List (List Char × Nat)
  | [] => []
  | .label name :: ls => (name, at_) :: labelOffsets at_ ls
  | l :: ls => labelOffsets (at_ + l.size) ls

/-- The flag byte: the tag of operand `k` in field `k`, every other field 0 (R85). -/
def flagByte (tags : List Tag) : Byte :=
  (tags.getD 0 .reserved).code ++ (tags.getD 1 .reserved).code ++ (tags.getD 2 .reserved).code
    ++ (tags.getD 3 .reserved).code

def AsmValue.resolve (offsets : List (List Char × Nat)) : AsmValue → Except AsmFault Word
  | .literal v => .ok v
  | .label name =>
    match offsets.lookup name with
    | some a => .ok (BitVec.ofNat 32 a)
    | none => .error .undefinedLabel

/-- The instruction operand a classified operand stands for, once the labels' offsets are known (R84, R85). -/
def AsmOperand.resolve (offsets : List (List Char × Nat)) : AsmOperand → Except AsmFault Operand
  | .reg r => .ok (.reg r)
  | .const v => (v.resolve offsets).map .const
  | .mem v => (v.resolve offsets).map .mem

/-- The payload an operand emits (R85). -/
def AsmOperand.payload (P : AsmParams) (offsets : List (List Char × Nat)) (o : AsmOperand) :
    Except AsmFault (List Byte) := (o.resolve offsets).map (Operand.bytes P.numbering)

/-- The bytes a line emits (R85): the payload of each operand's own type, even where the decoder reads a raw register
byte or nothing (R211). -/
def AsmLine.emit (P : AsmParams) (offsets : List (List Char × Nat)) : AsmLine → Except AsmFault (List Byte)
  | .blank => .ok []
  | .label _ => .ok []
  | .instr m ops =>
    match ops.mapM (AsmOperand.payload P offsets) with
    | .error e => .error e
    | .ok payloads =>
      .ok (P.numbering.opc m :: ((if argc m = 0 then [] else [flagByte (ops.map AsmOperand.tag)]) ++ payloads.flatten))

/-- An error with its line number, from 1, and the offending line (R86). -/
abbrev AsmError := AsmFault × Nat × List Char

/-- The labels of the lines in order; a second declaration of a name is an error (R84). -/
def declared (seen : List (List Char)) (n : Nat) : List (List Char) → Except AsmError (List (List Char))
  | [] => .ok seen
  | l :: ls =>
    match labelOf l with
    | none => declared seen (n + 1) ls
    | some name => if seen.contains name then .error (.duplicateLabel, n, l) else declared (name :: seen) (n + 1) ls

/-- Run a function over numbered lines, reporting the first error (R86). -/
def overLines {α : Type} (f : List Char → Except AsmFault α) (n : Nat) : List (List Char) → Except AsmError (List α)
  | [] => .ok []
  | l :: ls =>
    match f l with
    | .error e => .error (e, n, l)
    | .ok x => (overLines f (n + 1) ls).map (x :: ·)

/-- Assemble source lines: the image, or an error and no output (R86). -/
def assemble (P : AsmParams) (src : List (List Char)) : Except AsmError (List Byte) :=
  match declared [] 1 src with
  | .error e => .error e
  | .ok labels =>
    match overLines (parseLine P labels) 1 src with
    | .error e => .error e
    | .ok ls =>
      (overLines (fun l => (parseLine P labels l).bind (AsmLine.emit P (labelOffsets 0 ls))) 1 src).map List.flatten

end Sys2Proof.Machine
end

