-- ==== Sys2Proof/Machine/HostInterface.lean ====
section
/-! DEFINITION. What the host does to the engine: load an image, run, observe (spec/70_reset_and_hazards.md R200, R201, R206,
spec/60_exceptions.md R190). The host cannot write a running machine or inject events (R206). -/

namespace Sys2Proof.Machine

/-- Load an image at address 0 into a machine in its reset state (R200); a longer image than memory makes no machine
(R201). -/
def load (image : List Byte) : Option State :=
  if image.length ≤ Config.memSize then some (State.reset.setMem (Memory.writeBytes [] 0 image)) else none

/-- Run until halted, for at most the given number of steps (R206, R109); a run without HLT has no last step (R214). -/
def runFor : Nat → State → State
  | 0, s => s
  | n + 1, s =>
    match step s with
    | .next t => runFor n t
    | .fault _ => s
    | .refused _ => s

/-- The content of the diagnostic dump (R190); its text format is not specified. -/
structure Dump where
  ip : Word
  sp : Word
  eax : Word
  ebx : Word
  ecx : Word
  edx : Word
  mem : List Byte
  deriving DecidableEq, Repr

def State.dump (s : State) : Dump where
  ip := s.ip
  sp := s.sp
  eax := s.eax
  ebx := s.ebx
  ecx := s.ecx
  edx := s.edx
  mem := s.mem.readBytes 0 Config.memSize

/-- What the host gets back from a halted machine: whether it faulted, and the dump (R206). The host observes only after
`halted = 1`. -/
def observe (s : State) : Option (Bool × Dump) := if s.halted then some (s.faulted, s.dump) else none

end Sys2Proof.Machine
end

