-- ==== Sys2Proof/WellFormed.lean ====
section
/-! DEFINITION. Which instruction terms are encodings the decoder can produce: the tag of every consulted flag field is the
type of its operand, MOV's destination is no MemoryValue, and NOP's opcode byte is the code of no other mnemonic
(spec/30_encoding.md R64, R67, R68). -/

namespace Sys2Proof

/-- Well-formedness under a given numbering. -/
def Instr.wellFormedWith (N : Numbering) : Instr → Bool
  | .nop op => Mnemonic.all.all fun m => m == .nop || N.opc m != op
  | .mov ff dst src => tagAt ff 0 == dst.tag && tagAt ff 1 == src.tag && dst.tag != .memoryValue
  | .add ff _ val | .sub ff _ val | .mul ff _ val | .div ff _ val => tagAt ff 1 == val.tag
  | .push _ _ | .pop _ _ => true
  | .jmp ff dest => tagAt ff 0 == dest.tag
  | .jez ff dest test | .jnz ff dest test | .jlz ff dest test | .jgz ff dest test =>
    tagAt ff 0 == dest.tag && tagAt ff 1 == test.tag
  | .apush | .apop | .hwid | .hlt => true
  | .int _ => true

/-- Well-formedness for the machine. -/
def Instr.wellFormed (i : Instr) : Bool := i.wellFormedWith numbering

end Sys2Proof
end

