-- ==== Sys2Proof/Safety.lean ====
section
/-! DEFINITION. The terms claims are stated in: the invariant, what a safe end of a run is, when an operand can be read and what
it is worth, and when a push or a pop fits. They are written from the spec's rules, not from the meanings. -/

namespace Sys2Proof.Machine

/-- The machine's invariant: memory is in canonical form, and a fault halts (R183). -/
def State.Inv (s : State) : Prop := s.mem.wf ∧ (s.faulted = true → s.halted = true)

/-- A run that ended by HLT and not by a fault (R109, D6). -/
def State.HaltedCleanly (s : State) : Prop := s.halted = true ∧ s.faulted = false

/-- An operand whose evaluation does not fault (R100): only a MemoryValue can lie outside memory. -/
def Readable : Operand → Prop
  | .const _ => True
  | .reg _ => True
  | .mem a => 0 ≤ a.toInt ∧ a.toInt < 0x10000

/-- What a readable operand is worth (R100, R101), given the address just past its payload. -/
def valueOf (s : State) (endAddr : Word) : Operand → Word
  | .const v => v
  | .reg .eax => s.eax
  | .reg .ebx => s.ebx
  | .reg .ecx => s.ecx
  | .reg .edx => s.edx
  | .reg .sp => s.sp
  | .reg .ip => endAddr
  | .mem a => BitVec.ofInt 32 (s.mem.read a.toNat).toInt

/-- The last operand of an instruction ends where the instruction ends. -/
def lastValue (s : State) (o : Operand) : Word := valueOf s s.ip o

/-- The first of two operands ends where the second one's payload begins. -/
def firstValue (s : State) (first second : Operand) : Word :=
  valueOf s (s.ip - BitVec.ofNat 32 second.payloadLen) first

/-- The base of a stack region, as an address (R140). -/
def stackBase (s : State) : Nat := s.sp.toNat

/-- The count word at `sp`, signed (R140). -/
def stackCount (s : State) : Int := (s.mem.word (stackBase s)).toInt

/-- A push does not fault (R141, R142): the count word lies in memory, the count is not negative, and the region has room
for one more entry. -/
def CanPush (s : State) : Prop :=
  0 ≤ s.sp.toInt ∧ s.sp.toInt + 4 ≤ 0x10000 ∧ 0 ≤ stackCount s ∧ s.sp.toInt + 8 + 4 * stackCount s ≤ 0x10000

/-- A pop does not fault (R143): the count word lies in memory, the count is at least 1, and the region lies in memory. -/
def CanPop (s : State) : Prop :=
  0 ≤ s.sp.toInt ∧ s.sp.toInt + 4 ≤ 0x10000 ∧ 1 ≤ stackCount s ∧ s.sp.toInt + 4 + 4 * stackCount s ≤ 0x10000

/-- Four pushes in a row do not fault (R146). -/
def CanPushFour (s : State) : Prop :=
  0 ≤ s.sp.toInt ∧ 0 ≤ stackCount s ∧ s.sp.toInt + 8 + 4 * (stackCount s + 3) ≤ 0x10000

/-- Four pops in a row do not fault (R147). -/
def CanPopFour (s : State) : Prop :=
  0 ≤ s.sp.toInt ∧ 4 ≤ stackCount s ∧ s.sp.toInt + 4 + 4 * stackCount s ≤ 0x10000

/-- The old value ADD, SUB, MUL or DIV read of their destination (R130): for IP it is `a + 3`, which is where `val`'s
payload begins, or `a + len`, by the open parameter `ARITH_DST_READ`. -/
def oldValue (s : State) (r : Reg) (val : Operand) : Word :=
  if r = .ip then
    if Config.arithDstRead = .afterDstByte then s.ip - BitVec.ofNat 32 val.payloadLen else s.ip
  else s.reg r

/-- All registers but the named ones agree. -/
def SameRegsBut (changed : List Reg) (s t : State) : Prop := ∀ r, r ∉ changed → t.reg r = s.reg r

/-- The status flags and the model's draw counter agree. -/
def SameStatus (s t : State) : Prop := t.halted = s.halted ∧ t.faulted = s.faulted ∧ t.draws = s.draws

/-- `t` is `s` but for the named registers: the frame of an instruction that stores nothing. -/
def RegsOnly (changed : List Reg) (s t : State) : Prop := SameRegsBut changed s t ∧ SameStatus s t ∧ t.mem = s.mem

/-- Every byte outside `[lo, hi)` reads as before. -/
def MemOutside (lo hi : Nat) (s t : State) : Prop := ∀ x, x < lo ∨ hi ≤ x → t.mem.read x = s.mem.read x

/-- A fault was taken from `s`: `halted` and `faulted` set, every register but `ip` and all of memory as in `s` (R12, R184).
Nothing is said of `ip`. -/
def FaultHalts (s t : State) : Prop :=
  t.halted = true ∧ t.faulted = true ∧ SameRegsBut [.ip] s t ∧ t.mem = s.mem

/-- The same, and `ip` is the free draw, taken in the model's form: the uninterpreted constant at the draw counter, which
goes up by one (R183, D7, assumption log 4). -/
def FaultedFrom (s t : State) : Prop :=
  t.halted = true ∧ t.faulted = true ∧ t.ip = Config.ipAfterFault s.draws ∧ t.draws = s.draws + 1 ∧
    SameRegsBut [.ip] s t ∧ t.mem = s.mem

/-- The registers an instruction may write by its own effect (R103, R24, R147). -/
def writtenRegs : Instr → List Reg
  | .mov _ (.reg r) _ => [r]
  | .add _ r _ | .sub _ r _ | .mul _ r _ | .div _ r _ => [r]
  | .pop _ r => [r]
  | .apop => [.eax, .ebx, .ecx, .edx]
  | .jmp _ _ | .jez _ _ _ | .jnz _ _ _ | .jlz _ _ _ | .jgz _ _ _ => [.ip]
  | .mov _ (.const _) _ | .mov _ (.mem _) _ => []
  | .nop _ | .push _ _ | .apush | .hwid | .hlt | .int _ => []

/-- The addresses `[lo, hi)` an instruction may store to when it runs in `s`: MOV's destination byte (R123), or the stack
region its pushes and pops move (R141, R143, R146, R147); an empty range for every other form. -/
def storedRange (s : State) : Instr → Nat × Nat
  | .mov _ (.const a) _ => (a.toNat, a.toNat + 1)
  | .push _ _ => (stackBase s, stackBase s + 8 + 4 * (stackCount s).toNat)
  | .pop _ _ => (stackBase s, stackBase s + 4 + 4 * ((stackCount s).toNat - 1))
  | .apush => (stackBase s, stackBase s + 8 + 4 * ((stackCount s).toNat + 3))
  | .apop => (stackBase s, stackBase s + 4 + 4 * ((stackCount s).toNat - 1))
  | .mov _ (.reg _) _ | .mov _ (.mem _) _ => (0, 0)
  | .nop _ | .add _ _ _ | .sub _ _ _ | .mul _ _ _ | .div _ _ _ | .jmp _ _ => (0, 0)
  | .jez _ _ _ | .jnz _ _ _ | .jlz _ _ _ | .jgz _ _ _ | .hwid | .hlt | .int _ => (0, 0)

/-- Run `k` after an instruction that did not fault; one that faulted ends there (R12). -/
def thenRun (o : Host.Outcome State Fault Refusal) (k : State → Host.Outcome State Fault Refusal) :
    Host.Outcome State Fault Refusal :=
  match o with
  | .next t => if t.faulted then .next t else k t
  | .fault f => .fault f
  | .refused r => .refused r

/-- `L(tag)` (R69). -/
def tagLen : BitVec 2 → Nat := fun t => if t = 2 then 1 else 4

/-- The length R69 gives an opcode and a flag byte; none where a side condition of the table fails. -/
def tableLen (m : Mnemonic) (ff : Byte) : Option Nat :=
  match m with
  | .nop | .apush | .apop | .hwid | .hlt => some 1
  | .mov => if (field ff 0 = 1 ∨ field ff 0 = 2) ∧ field ff 1 ≠ 0 then
      some (2 + tagLen (field ff 0) + tagLen (field ff 1)) else none
  | .add | .sub | .mul | .div => if field ff 1 ≠ 0 then some (3 + tagLen (field ff 1)) else none
  | .push | .pop => some 3
  | .jmp => if field ff 0 ≠ 0 then some (2 + tagLen (field ff 0)) else none
  | .jez | .jnz | .jlz | .jgz => if field ff 0 ≠ 0 ∧ field ff 1 ≠ 0 then
      some (2 + tagLen (field ff 0) + tagLen (field ff 1)) else none
  | .int => some 2

/-- The flag fields the decoder consults (R68). -/
def consulted : Mnemonic → List Nat
  | .mov | .jez | .jnz | .jlz | .jgz => [0, 1]
  | .add | .sub | .mul | .div => [1]
  | .jmp => [0]
  | .nop | .push | .pop | .apush | .apop | .hwid | .hlt | .int => []

/-- The instruction with another flag byte, where it has one. -/
def withFlag (ff : Byte) : Instr → Instr
  | .nop op => .nop op
  | .mov _ d v => .mov ff d v
  | .add _ r v => .add ff r v
  | .sub _ r v => .sub ff r v
  | .mul _ r v => .mul ff r v
  | .div _ r v => .div ff r v
  | .push _ r => .push ff r
  | .pop _ r => .pop ff r
  | .apush => .apush
  | .apop => .apop
  | .jmp _ d => .jmp ff d
  | .jez _ d v => .jez ff d v
  | .jnz _ d v => .jnz ff d v
  | .jlz _ d v => .jlz ff d v
  | .jgz _ d v => .jgz ff d v
  | .hwid => .hwid
  | .hlt => .hlt
  | .int _ => .int ff

end Sys2Proof.Machine
end

