-- ==== Sys2Proof/Certificates/Slice0/Obligations.lean ====
section
/-! DEFINITION. The statements about the model. A meaning runs on the state the step hands to Execute (R90): in it `ip` is
already `a + len`, so `lastValue` and `firstValue` give an operand that names IP the value R101 gives it. No statement
rests on the value of a free constant (`OPC`, `RID`, `ARITH_DST_READ`, `IP_AFTER_FAULT`) or on the reset value of the
model's own field `draws`. Where a statement says `FaultedFrom`, its clause on `ip` and `draws` is the model's form of
the free draw (the spec's decision D7, assumption log 4). A docstring that names a decision `D<n>` rests on a choice of
the spec's own, 92_eei_decisions.md. -/

open Sys2Proof Sys2Proof.Machine

/-! ## Encoding and decoding -/

/-- Every well-formed instruction, with every operand and every flag byte it admits, is decoded back from its bytes,
whatever bytes follow (R61, R96). -/
def Obligations.DecodeOfEncodeIsTheInstruction : Prop :=
  ∀ (i : Instr) (rest : List Byte), i.wellFormed = true → decode (encode i ++ rest) = .ok (i, rest)

/-- Whatever the decoder accepts is a well-formed instruction, and the bytes it consumed are exactly that instruction's
encoding: no bit is dropped or invented (R61, R64, R96 to R99). -/
def Obligations.DecodedBytesAreTheEncoding : Prop :=
  ∀ (bs rest : List Byte) (i : Instr), decode bs = .ok (i, rest) → i.wellFormed = true ∧ bs = encode i ++ rest

/-- Words of R110 and of the vectors DEC2 to DEC27, written over OPC and RID, decode to the instructions they stand for.
A sanity check. -/
def Obligations.SpecWordsDecode : Prop :=
  let op := numbering.opc
  let id := numbering.rid
  decode [op .mov, 0x90, id .eax, 0x00, 0x00, 0x00, 0x05] = .ok (.mov 0x90 (.reg .eax) (.const 5), []) ∧
  decode [op .add, 0x10, id .ebx, 0xFF, 0xFF, 0xFF, 0xFF] = .ok (.add 0x10 .ebx (.const (-1)), []) ∧
  decode [op .push, 0x00, id .ecx] = .ok (.push 0x00 .ecx, []) ∧
  decode [op .jmp, 0xC0, 0x00, 0x00, 0x03, 0x00] = .ok (.jmp 0xC0 (.mem 0x300), []) ∧
  decode [op .jez, 0x60, 0x00, 0x00, 0x00, 0x20, id .eax] = .ok (.jez 0x60 (.const 0x20) (.reg .eax), []) ∧
  decode [op .int, 0x40, 0x00, 0x00, 0x00, 0x05] = .ok (.int 0x40, [0x00, 0x00, 0x00, 0x05])

/-- R69 (derived there from R61, R67, R68): the length is fixed by the opcode byte and the flag byte, by the rule's table;
where a side condition of the table fails, the instruction has no length and decodes to a fault. -/
def Obligations.LengthFixedByOpcodeAndFlag : Prop :=
  ∀ (op ff : Byte) (bs : List Byte),
    match tableLen ((numbering.mnemonicOf op).getD .nop) ff with
    | none => ∃ f, decode (op :: ff :: bs) = .error f
    | some n => ∀ i rest, decode (op :: ff :: bs) = .ok (i, rest) → (op :: ff :: bs).length = n + rest.length

/-- R64: a byte that is no mnemonic's code decodes as a 1-byte instruction without a flag byte, which does nothing, as NOP
does. That NOP has no flag byte is the spec's decision D3. -/
def Obligations.UnknownOpcodeIsNop : Prop :=
  ∀ (b : Byte) (rest : List Byte), (∀ m, numbering.opc m ≠ b) →
    ∃ i, decode (b :: rest) = .ok (i, rest) ∧ i.mnemonic = .nop ∧ i.len = 1 ∧
      ∀ s, exec i s = exec (.nop (numbering.opc .nop)) s

/-- Flag fields an opcode does not consult have no effect on the decode: two flag bytes that agree on the consulted
fields give the same result but for the flag byte kept in it (R66, R67, R68). -/
def Obligations.UnconsultedFlagFieldsAreIgnored : Prop :=
  ∀ (m : Mnemonic) (ff ff' : Byte) (bs : List Byte), argc m ≠ 0 → (∀ k ∈ consulted m, field ff k = field ff' k) →
    decode (numbering.opc m :: ff' :: bs) =
      (decode (numbering.opc m :: ff :: bs)).map fun p => (withFlag ff' p.1, p.2)

/-- R67: a 0 in a consulted field faults with InvalidOperandType before the operand's payload is read. The two
implications cover the first operand (MOV, JMP, the conditional jumps) and the second (behind any first operand). -/
def Obligations.ReservedTagFaults : Prop :=
  ∀ (ff : Byte) (bs : List Byte),
    (field ff 0 = 0 → ∀ m ∈ [Mnemonic.mov, .jmp, .jez, .jnz, .jlz, .jgz],
      decode (numbering.opc m :: ff :: bs) = .error .invalidOperandType) ∧
    (field ff 1 = 0 → (∀ r, ∀ m ∈ [Mnemonic.add, .sub, .mul, .div],
        decode (numbering.opc m :: ff :: numbering.rid r :: bs) = .error .invalidOperandType) ∧
      (∀ o : Operand, tagAt ff 0 = o.tag → ∀ m ∈ [Mnemonic.jez, .jnz, .jlz, .jgz],
        decode (numbering.opc m :: ff :: (o.bytes numbering ++ bs)) = .error .invalidOperandType) ∧
      (∀ o : Operand, tagAt ff 0 = o.tag → o.tag ≠ .memoryValue →
        decode (numbering.opc .mov :: ff :: (o.bytes numbering ++ bs)) = .error .invalidOperandType))

/-- R97, decision D14: a register-id byte that names no register faults with InvalidRegister when it is read: the raw register of ADD
to DIV, PUSH and POP, and a typed register in either operand. -/
def Obligations.InvalidRegisterIdFaults : Prop :=
  ∀ (b ff : Byte) (bs : List Byte), (∀ r, numbering.rid r ≠ b) →
    (∀ m ∈ [Mnemonic.add, .sub, .mul, .div, .push, .pop],
      decode (numbering.opc m :: ff :: b :: bs) = .error .invalidRegister) ∧
    (field ff 0 = 2 → ∀ m ∈ [Mnemonic.mov, .jmp, .jez, .jnz, .jlz, .jgz],
      decode (numbering.opc m :: ff :: b :: bs) = .error .invalidRegister) ∧
    (field ff 1 = 2 → (∀ r, ∀ m ∈ [Mnemonic.add, .sub, .mul, .div],
        decode (numbering.opc m :: ff :: numbering.rid r :: b :: bs) = .error .invalidRegister) ∧
      (∀ o : Operand, tagAt ff 0 = o.tag → ∀ m ∈ [Mnemonic.jez, .jnz, .jlz, .jgz],
        decode (numbering.opc m :: ff :: (o.bytes numbering ++ b :: bs)) = .error .invalidRegister) ∧
      (∀ o : Operand, tagAt ff 0 = o.tag → o.tag ≠ .memoryValue →
        decode (numbering.opc .mov :: ff :: (o.bytes numbering ++ b :: bs)) = .error .invalidRegister))

/-- R105: an instruction cut short decodes to OutOfBounds, wherever it is cut; and where its bytes stand in memory up to
0xFFFF and it would run past, the decode at its address is OutOfBounds: nothing continues at 0. -/
def Obligations.TruncatedInstructionIsOutOfBounds : Prop :=
  ∀ i : Instr, i.wellFormed = true →
    (∀ n < i.len, decode ((encode i).take n) = .error .outOfBounds) ∧
    (∀ (m : Memory) (a : Nat), a < 0x10000 → 0x10000 < a + i.len →
      (∀ k, (hk : k < (encode i).length) → a + k < 0x10000 → m.read (a + k) = (encode i)[k]) →
      decodeAt m a = .error .outOfBounds)

/-- R106: the decode reads at most ten bytes, and its result is the same in every memory that holds the same bytes over
the instruction. -/
def Obligations.DecodeReadsOnlyTheInstruction : Prop :=
  ∀ (m m' : Memory) (a : Int) (i : Instr), decodeAt m a = .ok i →
    i.len ≤ 10 ∧
      ((∀ k < i.len, m.read (a.toNat + k) = m'.read (a.toNat + k)) → decodeAt m' a = .ok i)

/-! ## The step -/

/-- R90: when the bytes at the wrapped `ip` decode to an instruction, the step is exec of it, on the state in which `ip`
has moved past the instruction's bytes. -/
def Obligations.StepRunsTheDecodedInstruction : Prop :=
  ∀ (s : State) (i : Instr), s.halted = false → decodeAt s.mem (wrapIp s).ip.toInt = .ok i →
    step s = exec i { wrapIp s with ip := BitVec.ofInt 32 ((wrapIp s).ip.toInt + i.len) }

/-- The same from the bytes: when memory holds a well-formed instruction's encoding at `ip`, and it ends inside memory, the
step runs exactly that instruction (R90, R61, R105). -/
def Obligations.StepRunsTheEncodedInstruction : Prop :=
  ∀ (s : State) (i : Instr), s.halted = false → i.wellFormed = true → 0 ≤ s.ip.toInt →
    s.ip.toInt + i.len ≤ 0x10000 → (∀ k, (hk : k < (encode i).length) → s.mem.read (s.ip.toNat + k) = (encode i)[k]) →
    step s = exec i { s with ip := s.ip + BitVec.ofNat 32 i.len }

/-- R91: an `ip` at or above 0x10000, compared signed (decision D8), is set to 0 and the step goes on from there. -/
def Obligations.StepWrapsIpToZero : Prop :=
  ∀ s : State, s.halted = false → 0x10000 ≤ s.ip.toInt → step s = step { s with ip := 0 }

/-- R92, R91: a negative `ip` does not wrap; its opcode fetch faults (decision D8). -/
def Obligations.NegativeIpFaultsAtFetch : Prop :=
  ∀ s : State, s.halted = false → s.ip.toInt < 0 → ∃ t, step s = .next t ∧ FaultedFrom s t

/-- R108: a fault raised inside Decode leaves every register except IP, and all of memory, as they were at the start of
the step; it sets both status flags, and IP becomes the free draw. -/
def Obligations.DecodeFaultLeavesTheState : Prop :=
  ∀ (s : State) (f : FaultInfo), s.halted = false → decodeAt s.mem (wrapIp s).ip.toInt = .error f →
    ∃ t, step s = .next t ∧ FaultedFrom s t

/-- R124 through a whole step: a MOV whose destination tag is MemoryValue, or 0, faults; registers and memory are
unchanged. -/
def Obligations.MovWithBadDestinationFaults : Prop :=
  ∀ (s : State) (ff : Byte), s.halted = false → 0 ≤ s.ip.toInt → s.ip.toInt + 2 ≤ 0x10000 →
    s.mem.read s.ip.toNat = numbering.opc .mov → s.mem.read (s.ip.toNat + 1) = ff →
    (field ff 0 = 3 → decodeAt s.mem s.ip.toInt = .error .invalidArgumentType) ∧
    (field ff 0 = 0 → decodeAt s.mem s.ip.toInt = .error .invalidOperandType) ∧
    (field ff 0 = 3 ∨ field ff 0 = 0 → ∃ t, step s = .next t ∧ FaultHalts s t)

/-- R90, R109: a running machine always takes a step to a next state, whatever its memory and registers hold; a halted one
has none. Nothing is refused. -/
def Obligations.RunningMachineAlwaysSteps : Prop :=
  ∀ s : State, (s.halted = false → ∃ t, step s = .next t) ∧ (s.halted = true → step s = .fault .runIsOver)

/-- R103: after a step that decoded `i` at `a` and did not fault, `ip` is `a + len` unless the instruction wrote it, and
the instructions that can write it are the ones R103 lists. -/
def Obligations.IpIsPastTheInstruction : Prop :=
  ∀ (s t : State) (i : Instr), step s = .next t → decodeAt s.mem (wrapIp s).ip.toInt = .ok i → s.faulted = false →
    t.faulted = false → .ip ∉ writtenRegs i → t.ip = (wrapIp s).ip + BitVec.ofNat 32 i.len

/-! ## Invariants -/

/-- The reset state meets the invariant: its memory is in canonical form, and `faulted` implies `halted` in it. -/
def Obligations.ResetMeetsTheInvariant : Prop := State.reset.Inv

/-- Every step keeps the invariant, from every state that meets it: memory stays in canonical form, and `faulted` is set
only on a halted machine (R183). -/
def Obligations.StepKeepsTheInvariant : Prop :=
  ∀ s t : State, s.Inv → step s = .next t → t.Inv

/-- Memories in canonical form that read alike at every address are equal as data. -/
def Obligations.CanonicalMemoryIsUnique : Prop :=
  ∀ m m' : Memory, m.wf → m'.wf → (∀ a, m.read a = m'.read a) → m = m'

/-! ## Status flags and the fault -/

/-- R27: `halted` is 0 at reset; HLT sets it and every fault sets it; nothing else sets it and nothing clears it; once it
is 1 the engine takes no step. -/
def Obligations.HaltedFlag : Prop :=
  State.reset.halted = false ∧
  (∀ s t, exec .hlt s = .next t → t.halted = true) ∧
  (∀ i s t, exec i s = .next t → (s.halted = true → t.halted = true) ∧
    (s.faulted = false → t.faulted = true → t.halted = true) ∧
    (s.halted = false → t.halted = true → i = .hlt ∨ t.faulted = true)) ∧
  (∀ s, s.halted = true → step s = .fault .runIsOver)

/-- R28 (decision D6), R183: `faulted` is 0 at reset and nothing clears it; an instruction that sets it has set `halted`
too, and `ip` is a free draw (decision D7, assumption log 4). -/
def Obligations.FaultedFlag : Prop :=
  State.reset.faulted = false ∧
  (∀ i s t, exec i s = .next t → (s.faulted = true → t.faulted = true) ∧
    (s.faulted = false → t.faulted = true →
      t.halted = true ∧ t.ip = Config.ipAfterFault s.draws ∧ t.draws = s.draws + 1))

/-- R184: the fault is precise for every instruction except APUSH and APOP: registers but IP, and memory, are as before
the instruction. -/
def Obligations.FaultsArePrecise : Prop :=
  ∀ (i : Instr) (s t : State), i ≠ .apush → i ≠ .apop → s.faulted = false → exec i s = .next t → t.faulted = true →
    FaultedFrom s t

/-- R100, R121, R161: an operand that is a MemoryValue outside memory faults, in every instruction that evaluates one: MOV to
a register and to memory, the arithmetic four, JMP, and either operand of a conditional jump whether or not it would
be taken. -/
def Obligations.UnreadableOperandFaults : Prop :=
  ∀ (s : State) (ff : Byte) (r : Reg) (a : Word) (o d : Operand), ¬ Readable o →
    ∀ i ∈ [Instr.mov ff (.reg r) o, .mov ff (.const a) o, .add ff r o, .sub ff r o, .mul ff r o, .div ff r o, .jmp ff o,
        .jez ff d o, .jnz ff d o, .jlz ff d o, .jgz ff d o, .jez ff o d, .jnz ff o d, .jlz ff o d, .jgz ff o d],
      ∃ t, exec i s = .next t ∧ FaultedFrom s t

/-! ## NOP, HWID, INT, HLT, MOV -/

/-- NOP, HWID and INT do nothing: `skip` (R120, R170, R172). -/
def Obligations.NopHwidIntChangeNothing : Prop :=
  ∀ (s : State) (op ff : Byte), exec (.nop op) s = .next s ∧ exec .hwid s = .next s ∧ exec (.int ff) s = .next s

/-- R171: HLT sets `halted` and changes nothing else; the machine then has no step. -/
def Obligations.HltHalts : Prop :=
  ∀ s : State, ∃ t, exec .hlt s = .next t ∧ t = { s with halted := true } ∧ step t = .fault .runIsOver

/-- R72: INT consumes its opcode and flag byte only; the payload the assembler emitted stays for the next decode. -/
def Obligations.IntLeavesItsPayload : Prop :=
  ∀ (P : AsmParams) (n : Word) (offsets : List (List Char × Nat)),
    ∃ ff payload, AsmLine.emit P offsets (.instr .int [.const (.literal n)]) = .ok (P.numbering.opc .int :: ff :: payload) ∧
      payload.length = 4 ∧
      ∀ rest, decodeWith P.numbering (P.numbering.opc .int :: ff :: (payload ++ rest)) = .ok (.int ff, payload ++ rest)

/-- R122: MOV to a register writes the whole source value to that register, any of the six, and nothing else. -/
def Obligations.MovWritesTheRegister : Prop :=
  ∀ (s : State) (ff : Byte) (r : Reg) (src : Operand), Readable src →
    ∃ t, exec (.mov ff (.reg r) src) s = .next t ∧ t.reg r = lastValue s src ∧ RegsOnly [r] s t

/-- R123: MOV to a Constant writes the low byte of the source at that address and no other byte; an address outside
memory faults and writes nothing. -/
def Obligations.MovStoresOneByte : Prop :=
  ∀ (s : State) (ff : Byte) (a : Word) (src : Operand), Readable src →
    (0 ≤ a.toInt ∧ a.toInt < 0x10000 → ∃ t, exec (.mov ff (.const a) src) s = .next t ∧
      t.mem.read a.toNat = (lastValue s src).setWidth 8 ∧ MemOutside a.toNat (a.toNat + 1) s t ∧
      SameRegsBut [] s t ∧ SameStatus s t) ∧
    (a.toInt < 0 ∨ 0x10000 ≤ a.toInt → ∃ t, exec (.mov ff (.const a) src) s = .next t ∧ FaultHalts s t)

/-- R125, R100: a MemoryValue source is one signed byte: the register gets a value from -128 to 127 that has the byte as
its low byte. -/
def Obligations.MovLoadsOneSignedByte : Prop :=
  ∀ (s : State) (ff : Byte) (r : Reg) (a : Word), 0 ≤ a.toInt → a.toInt < 0x10000 →
    ∃ t, exec (.mov ff (.reg r) (.mem a)) s = .next t ∧ -128 ≤ (t.reg r).toInt ∧ (t.reg r).toInt ≤ 127 ∧
      (t.reg r).setWidth 8 = s.mem.read a.toNat

/-! ## Arithmetic -/

/-- R131, R132, R133, decision D11: ADD, SUB and MUL write the exact signed result wrapped to 32 bits, and never fault on
overflow. -/
def Obligations.AddSubMulWrap : Prop :=
  ∀ (s : State) (ff : Byte) (r : Reg) (val : Operand), Readable val →
    (∃ t, exec (.add ff r val) s = .next t ∧
      t.reg r = BitVec.ofInt 32 ((oldValue s r val).toInt + (lastValue s val).toInt) ∧ RegsOnly [r] s t) ∧
    (∃ t, exec (.sub ff r val) s = .next t ∧
      t.reg r = BitVec.ofInt 32 ((oldValue s r val).toInt - (lastValue s val).toInt) ∧ RegsOnly [r] s t) ∧
    (∃ t, exec (.mul ff r val) s = .next t ∧
      t.reg r = BitVec.ofInt 32 ((oldValue s r val).toInt * (lastValue s val).toInt) ∧ RegsOnly [r] s t)

/-- R135, on the spec's decision D11 (assumption log 8): ADD, SUB and MUL are the ring operations modulo 2^32, the same
bits whether the operands are read signed or unsigned. -/
def Obligations.AddSubMulAreRingOperations : Prop :=
  ∀ (s : State) (ff : Byte) (r : Reg) (val : Operand), Readable val →
    exec (.add ff r val) s = .next (s.setReg r (oldValue s r val + lastValue s val)) ∧
    exec (.sub ff r val) s = .next (s.setReg r (oldValue s r val - lastValue s val)) ∧
    exec (.mul ff r val) s = .next (s.setReg r (oldValue s r val * lastValue s val))

/-- R134: DIV writes the quotient truncated toward zero and wrapped (decision D12); a zero divisor faults and the
destination keeps its value. -/
def Obligations.DivTruncatesOrFaults : Prop :=
  ∀ (s : State) (ff : Byte) (r : Reg) (val : Operand), Readable val →
    (lastValue s val ≠ 0 → ∃ t, exec (.div ff r val) s = .next t ∧
      t.reg r = BitVec.ofInt 32 ((oldValue s r val).toInt.tdiv (lastValue s val).toInt) ∧ RegsOnly [r] s t) ∧
    (lastValue s val = 0 → ∃ t, exec (.div ff r val) s = .next t ∧ FaultedFrom s t)

/-- R135, decision D12: the sign table of DIV on the general registers and SP, in floor divisions of non-negative numbers;
-2^31 by -1 wraps to -2^31. DivTruncatesOrFaults covers IP as the destination. -/
def Obligations.DivSignTable : Prop :=
  ∀ (s : State) (ff : Byte) (r : Reg) (val : Operand), Readable val → r ≠ .ip → lastValue s val ≠ 0 →
    ∃ t, exec (.div ff r val) s = .next t ∧
      let old := (s.reg r).toInt
      let v := (lastValue s val).toInt
      (t.reg r).toInt =
        if old = -2 ^ 31 ∧ v = -1 then -2 ^ 31
        else if 0 ≤ old ∧ 0 < v then old / v
        else if old < 0 ∧ 0 < v then -((-old) / v)
        else if 0 ≤ old then -(old / (-v))
        else (-old) / (-v)

/-- R136: ADD IP, n and SUB IP, n with a Constant n are relative jumps from `a + 3` where ARITH_DST_READ is AfterDstByte and
from `a + 7` where it is AfterInstruction. The parameter is open (assumption log 3); the statement holds for both. -/
def Obligations.AddToIpIsARelativeJump : Prop :=
  ∀ (s : State) (ff : Byte) (a n : Word),
    let base : Word := match Config.arithDstRead with
      | .afterDstByte => 3
      | .afterInstruction => 7
    exec (.add ff .ip (.const n)) { s with ip := a + 7 } = .next { s with ip := a + base + n } ∧
    exec (.sub ff .ip (.const n)) { s with ip := a + 7 } = .next { s with ip := a + base - n }

/-! ## The stack -/

/-- R141: a push that fits increments the count word, writes the value above it, moves every older entry up by 4 bytes,
and changes nothing else. -/
def Obligations.PushEffect : Prop :=
  ∀ (s : State) (ff : Byte) (r : Reg), CanPush s →
    ∃ t, exec (.push ff r) s = .next t ∧ stackCount t = stackCount s + 1 ∧
      t.mem.word (stackBase s + 4) = lastValue s (.reg r) ∧
      (∀ x, stackBase s + 8 ≤ x → x < stackBase s + 8 + 4 * (stackCount s).toNat → t.mem.read x = s.mem.read (x - 4)) ∧
      MemOutside (stackBase s) (stackBase s + 8 + 4 * (stackCount s).toNat) s t ∧ SameRegsBut [] s t ∧ SameStatus s t

/-- R142: a push that does not fit, or that finds a negative count (decision D13), faults with memory and registers
unchanged. -/
def Obligations.PushFaults : Prop :=
  ∀ (s : State) (ff : Byte) (r : Reg), ¬ CanPush s → ∃ t, exec (.push ff r) s = .next t ∧ FaultedFrom s t

/-- R142, and the spec's decision D13 (assumption log 9) for a negative count: for `sp` in 0..0xFFF8 a push succeeds iff the
count before it is in `0..floor((0x10000 - sp - 8) / 4)`, which is
`0..1022` at the reset `sp`; so the stack holds at most one entry more than that. -/
def Obligations.StackCapacity : Prop :=
  ∀ (s : State) (ff : Byte) (r : Reg), s.faulted = false →
    (0 ≤ s.sp.toInt ∧ s.sp.toInt ≤ 0xFFF8 → ((∃ t, exec (.push ff r) s = .next t ∧ t.faulted = false) ↔
      0 ≤ stackCount s ∧ stackCount s ≤ (0x10000 - s.sp.toInt - 8) / 4)) ∧
    (s.sp = 0xF000 → ((∃ t, exec (.push ff r) s = .next t ∧ t.faulted = false) ↔
      0 ≤ stackCount s ∧ stackCount s ≤ 1022))

/-- R143, R145, R148: a pop that fits writes the newest entry to the register, decrements the count word, moves every
older entry down by 4 bytes, and changes nothing else: the top slot it vacates keeps its bytes. -/
def Obligations.PopEffect : Prop :=
  ∀ (s : State) (ff : Byte) (r : Reg), CanPop s →
    ∃ t, exec (.pop ff r) s = .next t ∧ t.reg r = s.mem.word (stackBase s + 4) ∧
      (t.mem.word (stackBase s)).toInt = stackCount s - 1 ∧
      (∀ x, stackBase s + 4 ≤ x → x < stackBase s + 4 + 4 * ((stackCount s).toNat - 1) →
        t.mem.read x = s.mem.read (x + 4)) ∧
      MemOutside (stackBase s) (stackBase s + 4 + 4 * ((stackCount s).toNat - 1)) s t ∧
      SameRegsBut [r] s t ∧ SameStatus s t

/-- R143: a pop that finds a count below 1, or whose region leaves memory, faults with memory and registers unchanged. -/
def Obligations.PopFaults : Prop :=
  ∀ (s : State) (ff : Byte) (r : Reg), ¬ CanPop s → ∃ t, exec (.pop ff r) s = .next t ∧ FaultedFrom s t

/-- R151: a push followed by a pop leaves the pushed value in the popped register and restores the count, every entry and
all of memory but the stale slot above the entries (R148), wherever `ip` stands between the two. -/
def Obligations.PushThenPopRestores : Prop :=
  ∀ (s : State) (ff ff' : Byte) (r q : Reg) (w : Word), CanPush s →
    ∃ t u, exec (.push ff r) s = .next t ∧ exec (.pop ff' q) (t.setReg .ip w) = .next u ∧
      u.reg q = lastValue s (.reg r) ∧ SameRegsBut [q, .ip] s u ∧
      MemOutside (stackBase s + 4 + 4 * (stackCount s).toNat) (stackBase s + 8 + 4 * (stackCount s).toNat) s u

/-- R146: APUSH with room for four pushes EDX, ECX, EBX, EAX: EAX is the newest entry and EDX the oldest of the four; the
older entries move up by 16 bytes; nothing else changes. ApushApopAreSequences says what happens without room. -/
def Obligations.ApushEffect : Prop :=
  ∀ s : State, CanPushFour s →
    ∃ t, exec .apush s = .next t ∧ stackCount t = stackCount s + 4 ∧
      t.mem.word (stackBase s + 4) = s.eax ∧ t.mem.word (stackBase s + 8) = s.ebx ∧
      t.mem.word (stackBase s + 12) = s.ecx ∧ t.mem.word (stackBase s + 16) = s.edx ∧
      (∀ x, stackBase s + 20 ≤ x → x < stackBase s + 20 + 4 * (stackCount s).toNat →
        t.mem.read x = s.mem.read (x - 16)) ∧
      MemOutside (stackBase s) (stackBase s + 20 + 4 * (stackCount s).toNat) s t ∧ SameRegsBut [] s t ∧ SameStatus s t

/-- R147, R148: APOP with four entries pops EAX, EBX, ECX, EDX, newest first; the older entries move down by 16 bytes; each
of the four slots it vacates holds the oldest entry, as W5 shows; SP, IP and every other byte stay. -/
def Obligations.ApopEffect : Prop :=
  ∀ s : State, CanPopFour s →
    ∃ t, exec .apop s = .next t ∧ stackCount t = stackCount s - 4 ∧
      t.eax = s.mem.word (stackBase s + 4) ∧ t.ebx = s.mem.word (stackBase s + 8) ∧
      t.ecx = s.mem.word (stackBase s + 12) ∧ t.edx = s.mem.word (stackBase s + 16) ∧
      (∀ x, stackBase s + 4 ≤ x → x < stackBase s + 4 + 4 * ((stackCount s).toNat - 4) →
        t.mem.read x = s.mem.read (x + 16)) ∧
      (∀ j, (stackCount s).toNat - 4 ≤ j → j < (stackCount s).toNat →
        t.mem.word (stackBase s + 4 + 4 * j) = s.mem.word (stackBase s + 4 * (stackCount s).toNat)) ∧
      MemOutside (stackBase s) (stackBase s + 4 + 4 * ((stackCount s).toNat - 1)) s t ∧
      SameRegsBut [.eax, .ebx, .ecx, .edx] s t ∧ SameStatus s t

/-- R151: APUSH, then APOP in any later state with the same memory and `sp`, restores EAX, EBX, ECX and EDX and the
count. -/
def Obligations.ApushThenApopRestores : Prop :=
  ∀ s : State, CanPushFour s → ∃ t, exec .apush s = .next t ∧
    ∀ t' : State, t'.mem = t.mem → t'.sp = t.sp →
      ∃ u, exec .apop t' = .next u ∧ u.eax = s.eax ∧ u.ebx = s.ebx ∧ u.ecx = s.ecx ∧ u.edx = s.edx ∧
        stackCount u = stackCount s

/-- R146, R147: APUSH and APOP are four pushes and four pops in the fixed orders, and the first one that faults ends the
instruction with the ones before it done (the spec's own decision D15). -/
def Obligations.ApushApopAreSequences : Prop :=
  ∀ (s : State) (ff : Byte), s.faulted = false →
    (exec .apush s =
      thenRun (exec (.push ff .edx) s) fun s => thenRun (exec (.push ff .ecx) s) fun s =>
        thenRun (exec (.push ff .ebx) s) (exec (.push ff .eax))) ∧
    (exec .apop s =
      thenRun (exec (.pop ff .eax) s) fun s => thenRun (exec (.pop ff .ebx) s) fun s =>
        thenRun (exec (.pop ff .ecx) s) (exec (.pop ff .edx)))

/-! ## Control transfer -/

/-- R160: JMP sets `ip` to its destination's value, an absolute address, whatever it is, and changes nothing else. -/
def Obligations.JmpGoesToItsDestination : Prop :=
  ∀ (s : State) (ff : Byte) (dest : Operand), Readable dest →
    ∃ t, exec (.jmp ff dest) s = .next t ∧ t.ip = lastValue s dest ∧ RegsOnly [.ip] s t

/-- R162 to R165: each conditional jump goes to its destination iff its test holds of the signed value of the test operand;
otherwise `ip` stays past the instruction; nothing else changes. -/
def Obligations.ConditionalJumps : Prop :=
  ∀ (s : State) (ff : Byte) (dest test : Operand), Readable dest → Readable test →
    (∃ t, exec (.jez ff dest test) s = .next t ∧ RegsOnly [.ip] s t ∧
      t.ip = if (lastValue s test).toInt = 0 then firstValue s dest test else s.ip) ∧
    (∃ t, exec (.jnz ff dest test) s = .next t ∧ RegsOnly [.ip] s t ∧
      t.ip = if (lastValue s test).toInt ≠ 0 then firstValue s dest test else s.ip) ∧
    (∃ t, exec (.jlz ff dest test) s = .next t ∧ RegsOnly [.ip] s t ∧
      t.ip = if (lastValue s test).toInt < 0 then firstValue s dest test else s.ip) ∧
    (∃ t, exec (.jgz ff dest test) s = .next t ∧ RegsOnly [.ip] s t ∧
      t.ip = if (lastValue s test).toInt > 0 then firstValue s dest test else s.ip)

/-! ## Whole-machine rules -/

/-- R103, R24: an instruction changes no register but the ones it writes by its own effect, faulting or not, save `ip`
where it faults. In particular `sp` changes only as the destination of MOV, POP or arithmetic. -/
def Obligations.RegisterFrame : Prop :=
  ∀ (i : Instr) (s t : State), exec i s = .next t →
    (∀ r, r ∉ writtenRegs i → r ≠ .ip → t.reg r = s.reg r) ∧
    (s.faulted = false → t.faulted = false → .ip ∉ writtenRegs i → t.ip = s.ip)

/-- R45, R123, R141, R143: an instruction changes no byte of memory outside the range it stores to, which is empty for
every form but MOV to a Constant and the four stack instructions. -/
def Obligations.MemoryFrame : Prop :=
  ∀ (i : Instr) (s t : State), exec i s = .next t → MemOutside (storedRange s i).1 (storedRange s i).2 s t

/-- R31, R90: the whole effect of an instruction is a function of the registers and memory: two states that differ only in
the status flags give next states that agree in every register and in memory. -/
def Obligations.StatusFlagsAreNotRead : Prop :=
  ∀ (i : Instr) (s t : State) (h f : Bool), exec i s = .next t →
    ∃ t', exec i { s with halted := h, faulted := f } = .next t' ∧ (∀ r, t'.reg r = t.reg r) ∧ t'.mem = t.mem

/-! ## Memory and the host -/

/-- R41: a 1-byte read at `a+k` of a word written big-endian at `a` returns bits `[31-8k : 24-8k]` of the word. -/
def Obligations.BytesOfAWrittenWord : Prop :=
  ∀ (m m' : Memory) (a : Int) (w : Word) (k : Nat), memWrite4 m a w = .ok m' → k < 4 →
    memRead1 m' (a + k) = .ok (w.extractLsb' (24 - 8 * k) 8)

/-- R47, decision D22: a block move inside memory gives every destination byte the value the source byte had before the move, overlap or
not, and changes no other byte; outside memory, or of a negative length, it faults and moves nothing. -/
def Obligations.BlockMoveIsMemmove : Prop :=
  ∀ (m : Memory) (dst src len : Int),
    (0 ≤ len ∧ 0 ≤ src ∧ src + len ≤ 0x10000 ∧ 0 ≤ dst ∧ dst + len ≤ 0x10000 →
      ∃ m', memMove m dst src len = .ok m' ∧
        (∀ k : Nat, (k : Int) < len → m'.read (dst.toNat + k) = m.read (src.toNat + k)) ∧
        (∀ x : Nat, (x : Int) < dst ∨ dst + len ≤ x → m'.read x = m.read x)) ∧
    (¬ (0 ≤ len ∧ 0 ≤ src ∧ src + len ≤ 0x10000 ∧ 0 ≤ dst ∧ dst + len ≤ 0x10000) →
      memMove m dst src len = .error .stackBounds)

/-- R200: a machine loaded with an image that fits holds the image from address 0 and zero in every other byte, registers
0 but `sp = 0xF000`, and both status flags clear (`halted` derived by R27, `faulted` by decision D6). -/
def Obligations.LoadedMachineIsReset : Prop :=
  ∀ image : List Byte, image.length ≤ 0x10000 →
    ∃ s, load image = some s ∧ s.eax = 0 ∧ s.ebx = 0 ∧ s.ecx = 0 ∧ s.edx = 0 ∧ s.sp = 0xF000 ∧ s.ip = 0 ∧
      s.halted = false ∧ s.faulted = false ∧ (∀ k, (hk : k < image.length) → s.mem.read k = image[k]) ∧
      (∀ a, image.length ≤ a → s.mem.read a = 0)

/-- R201: an image longer than memory is refused, and no machine exists (the spec's own decision D17). -/
def Obligations.OversizedImageIsRefused : Prop :=
  ∀ image : List Byte, 0x10000 < image.length → load image = none

/-- R190: the dump holds the six registers and the 65536 bytes of memory in order, and it is given when the machine has
halted. That nothing is given before is the model's choice (assumption log 15): R206 assumes that the host observes
only after `halted = 1`. -/
def Obligations.DumpContent : Prop :=
  ∀ s : State, (s.halted = false → observe s = none) ∧
    (s.halted = true → ∃ d, observe s = some (s.faulted, d) ∧ d.ip = s.ip ∧ d.sp = s.sp ∧ d.eax = s.eax ∧
      d.ebx = s.ebx ∧ d.ecx = s.ecx ∧ d.edx = s.edx ∧ d.mem.length = 0x10000 ∧
      ∀ a < 0x10000, d.mem[a]? = some (s.mem.read a))

/-! ## The encoding the assembler emits -/

/-- R85, R66: the flag byte the assembler emits has the tag of operand `k` in field `k`, and 0 in every field without an
operand (decision D16); R88's table of common flag bytes. -/
def Obligations.FlagBytePacksTheTags : Prop :=
  (∀ (tags : List Tag) (k : Nat), k < 4 → field (flagByte tags) k = (tags.getD k .reserved).code) ∧
  flagByte [.register, .constant] = 0x90 ∧ flagByte [.register, .register] = 0xA0 ∧
  flagByte [.register, .memoryValue] = 0xB0 ∧ flagByte [.constant, .register] = 0x60 ∧
  flagByte [.constant, .constant] = 0x50 ∧ flagByte [.constant, .memoryValue] = 0x70 ∧
  flagByte [.memoryValue, .register] = 0xE0 ∧ flagByte [.register] = 0x80 ∧ flagByte [.constant] = 0x40 ∧
  flagByte [.memoryValue] = 0xC0

/-- R85, R211, R124: an emitted instruction is decoded as itself, with its own mnemonic, flag byte and operands, labels
resolved, and all its bytes are consumed, unless it is an INT or has a first operand that is no Register where the
decoder reads a raw register byte (R211), or is a MOV to a MemoryValue, which faults (R124). -/
def Obligations.EmittedInstructionDecodesInStep : Prop :=
  ∀ (P : AsmParams) (offsets : List (List Char × Nat)) (m : Mnemonic) (ops : List AsmOperand) (bytes rest : List Byte),
    AsmLine.emit P offsets (.instr m ops) = .ok bytes → ops.length = argc m → m ≠ .int →
    (m = .mov → ∀ o ∈ ops.head?, o.tag ≠ .memoryValue) →
    (m ∈ [Mnemonic.add, .sub, .mul, .div, .push, .pop] → ∀ o ∈ ops.head?, o.tag = .register) →
    ∃ i, decodeWith P.numbering (bytes ++ rest) = .ok (i, rest) ∧ i.mnemonic = m ∧
      ops.mapM (AsmOperand.resolve offsets) = .ok i.operands ∧
      i.flagByte = (if argc m = 0 then none else some (flagByte (ops.map AsmOperand.tag))) ∧ i.len = bytes.length

/-! ## The decoder block's answer -/

/-- R6, R95: what the decoder block answers, said of the bytes in memory: the opcode byte and its mnemonic, the flag byte iff
the opcode has operands, as many operands as R96 extracts, the first right behind the flag byte, the second right
behind the first, the last one ending with the instruction, each with the payload below its `end`. -/
def Obligations.DecoderReportsTheInstruction : Prop :=
  ∀ (m : Memory) (a : Int) (d : Decoded), decodeBlock m a = .ok d →
    decodeAt m a = .ok d.instr ∧ d.m = d.instr.mnemonic ∧ d.len = d.instr.len ∧
    d.ops.map Extracted.operand = d.instr.operands ∧
    d.op = m.read a.toNat ∧ d.m = (numbering.mnemonicOf d.op).getD .nop ∧
    d.ff = (if argc d.m = 0 then none else some (m.read (a.toNat + 1))) ∧
    d.ops.length = (if d.m = .int then 0 else argc d.m) ∧
    (∀ o ∈ d.ops.head?, o.endAddr - o.operand.payloadLen = a + 2) ∧
    (∀ o₁ o₂, d.ops = [o₁, o₂] → o₂.endAddr - o₂.operand.payloadLen = o₁.endAddr) ∧
    (∀ o ∈ d.ops.getLast?, o.endAddr = a + d.len) ∧
    (∀ o ∈ d.ops, ∀ k, (hk : k < (o.operand.bytes numbering).length) →
      m.read ((o.endAddr - o.operand.payloadLen).toNat + k) = (o.operand.bytes numbering)[k])

/-- R101 (decision D9), R130: where Execute reads an operand that names IP, it reads the `end` the decoder block reported of
that operand; the old value of a destination that is IP is the first operand's `end` or the instruction's, by the open
ARITH_DST_READ (assumption log 3). -/
def Obligations.IpOperandIsItsEnd : Prop :=
  ∀ (s : State) (d : Decoded), s.halted = false → decodeBlock s.mem (wrapIp s).ip.toInt = .ok d →
    let u : State := { wrapIp s with ip := BitVec.ofInt 32 ((wrapIp s).ip.toInt + d.len) }
    step s = exec d.instr u ∧
    (∀ o ∈ d.ops.getLast?, lastValue u (.reg .ip) = BitVec.ofInt 32 o.endAddr) ∧
    (∀ o₁ o₂, d.ops = [o₁, o₂] → firstValue u (.reg .ip) o₂.operand = BitVec.ofInt 32 o₁.endAddr ∧
      oldValue u .ip o₂.operand = match Config.arithDstRead with
        | .afterDstByte => BitVec.ofInt 32 o₁.endAddr
        | .afterInstruction => BitVec.ofInt 32 ((wrapIp s).ip.toInt + d.len))
end

