-- ==== Sys2Proof/Laws/Memory.lean ====
section
/-! SUPPORT. The laws of memory: read after write, byte blocks, words, the canonical form. None of the read laws needs the
canonical form, so they hold in every state. -/

namespace Sys2Proof.Machine

variable {m : Memory} {a x : Nat} {b : Byte}

/-! ## One byte -/

theorem Memory.read_erase : (m.erase a).read x = if x = a then Memory.unlisted else m.read x := by
  induction m with
  | nil => simp [Memory.erase, Memory.read]
  | cons c m ih =>
    obtain ⟨k, v⟩ := c
    unfold Memory.erase at ih ⊢
    by_cases hk : k = a
    · subst hk
      simp only [List.filter_cons, bne_self_eq_false, Bool.false_eq_true, if_false, ih, Memory.read]
      split
      · rfl
      · rw [if_neg (by omega)]
    · simp only [List.filter_cons, bne_iff_ne, ne_eq, hk, not_false_eq_true, if_true, Memory.read, ih]
      by_cases hx : k = x
      · simp [hx, show x ≠ a by omega]
      · simp [hx]

theorem Memory.read_insert (h : m.read a = Memory.unlisted ∧ ∀ c ∈ m, c.1 ≠ a) :
    (m.insert a b).read x = if x = a then b else m.read x := by
  obtain ⟨-, h⟩ := h
  induction m with
  | nil => simp [Memory.insert, Memory.read, eq_comm]
  | cons c m ih =>
    obtain ⟨k, v⟩ := c
    have hk : k ≠ a := h (k, v) (by simp)
    have ih := ih fun c hc => h c (by simp [hc])
    simp only [Memory.insert]
    split
    · simp [Memory.read, eq_comm]
    · simp only [Memory.read, ih]
      by_cases hx : k = x
      · simp [hx, show x ≠ a by omega]
      · simp [hx]

theorem Memory.fst_ne_of_mem_erase {c : Host.Cell} (h : c ∈ m.erase a) : c.1 ≠ a := by
  simpa using (List.mem_filter.1 h).2

/-- Read after write, for every memory and every pair of addresses. -/
theorem Memory.read_write : (m.write a b).read x = if x = a then b else m.read x := by
  unfold Memory.write
  split
  · next h => simp [Memory.read_erase, h]
  · rw [Memory.read_insert ⟨by simp [Memory.read_erase], fun c hc => Memory.fst_ne_of_mem_erase hc⟩]
    split
    · rfl
    · next h => simp [Memory.read_erase, h]

@[simp] theorem Memory.read_write_same : (m.write a b).read a = b := by simp [Memory.read_write]

theorem Memory.read_write_ne (h : x ≠ a) : (m.write a b).read x = m.read x := by simp [Memory.read_write, h]

@[simp] theorem Memory.read_nil : Memory.read [] a = 0 := rfl

/-! ## Blocks of bytes -/

@[simp] theorem Memory.length_readBytes {n : Nat} : (m.readBytes a n).length = n := by
  induction n generalizing a with
  | zero => rfl
  | succ n ih => simp [Memory.readBytes, ih]

theorem Memory.getElem?_readBytes {n k : Nat} (h : k < n) : (m.readBytes a n)[k]? = some (m.read (a + k)) := by
  induction n generalizing a k with
  | zero => omega
  | succ n ih =>
    cases k with
    | zero => simp [Memory.readBytes]
    | succ k =>
      simp only [Memory.readBytes, List.getElem?_cons_succ]
      rw [ih (by omega), show a + 1 + k = a + (k + 1) by omega]

theorem Memory.readBytes_congr {m m' : Memory} {n : Nat} (h : ∀ k < n, m.read (a + k) = m'.read (a + k)) :
    m.readBytes a n = m'.readBytes a n := by
  induction n generalizing a with
  | zero => rfl
  | succ n ih =>
    simp only [Memory.readBytes]
    rw [show m.read a = m'.read a by simpa using h 0 (by omega)]
    rw [ih fun k hk => by simpa [Nat.add_assoc, Nat.add_comm 1] using h (k + 1) (by omega)]

theorem Memory.readBytes_add {n k : Nat} : m.readBytes a (n + k) = m.readBytes a n ++ m.readBytes (a + n) k := by
  induction n generalizing a with
  | zero => simp [Memory.readBytes]
  | succ n ih =>
    rw [Nat.succ_add]
    simp only [Memory.readBytes, ih, List.cons_append]
    rw [show a + 1 + n = a + (n + 1) by omega]

/-- Reading after a block write: the block's own byte inside it, the old byte outside. -/
theorem Memory.read_writeBytes {bs : List Byte} :
    (m.writeBytes a bs).read x = if a ≤ x ∧ x < a + bs.length then bs.getD (x - a) 0 else m.read x := by
  induction bs generalizing m a with
  | nil => simp [Memory.writeBytes]
  | cons b bs ih =>
    simp only [Memory.writeBytes, ih, List.length_cons, Memory.read_write]
    by_cases hx : x = a
    · subst hx; simp
    · by_cases h1 : a + 1 ≤ x ∧ x < a + 1 + bs.length
      · rw [if_pos h1, if_pos (by omega), show x - a = (x - (a + 1)) + 1 by omega]; simp
      · rw [if_neg h1, if_neg hx, if_neg (by omega)]

theorem Memory.read_writeBytes_out {bs : List Byte} (h : x < a ∨ a + bs.length ≤ x) :
    (m.writeBytes a bs).read x = m.read x := by rw [Memory.read_writeBytes, if_neg (by omega)]

theorem Memory.read_writeBytes_in {bs : List Byte} {k : Nat} (h : k < bs.length) :
    (m.writeBytes a bs).read (a + k) = bs[k] := by
  rw [Memory.read_writeBytes, if_pos (by omega)]
  simp [h]

/-! ## Words -/

theorem be32_be32Bytes (w : Word) :
    be32 (w.extractLsb' 24 8) (w.extractLsb' 16 8) (w.extractLsb' 8 8) (w.extractLsb' 0 8) = w := by
  unfold be32
  rw [BitVec.extractLsb'_append_extractLsb'_eq_extractLsb' (by rfl),
    BitVec.extractLsb'_append_extractLsb'_eq_extractLsb' (by rfl),
    BitVec.extractLsb'_append_extractLsb'_eq_extractLsb' (by rfl)]
  simp

theorem getLsbD_be32 (b0 b1 b2 b3 : Byte) (i : Nat) :
    (be32 b0 b1 b2 b3).getLsbD i =
      if i < 8 then b3.getLsbD i else if i < 16 then b2.getLsbD (i - 8)
      else if i < 24 then b1.getLsbD (i - 16) else b0.getLsbD (i - 24) := by
  unfold be32
  change BitVec.getLsbD (w := 8 + 8 + 8 + 8) (b0 ++ b1 ++ b2 ++ b3) i = _
  simp only [BitVec.getLsbD_append, Nat.sub_sub]
  have h1 : (i - 8 < 8) ↔ i < 16 := by omega
  have h2 : (i - (8 + 8) < 8) ↔ i < 24 := by omega
  simp only [h1, h2]

theorem be32Bytes_be32 (b0 b1 b2 b3 : Byte) : be32Bytes (be32 b0 b1 b2 b3) = [b0, b1, b2, b3] := by
  simp only [be32Bytes, List.cons.injEq, and_true]
  refine ⟨?_, ?_, ?_, ?_⟩ <;>
  · apply BitVec.eq_of_getLsbD_eq
    intro i hi
    simp only [BitVec.getLsbD_extractLsb', getLsbD_be32, hi, decide_true, Bool.true_and]
    first
    | rw [if_neg (by omega), if_neg (by omega), if_neg (by omega)]; congr 1; omega
    | rw [if_neg (by omega), if_neg (by omega), if_pos (by omega)]; congr 1; omega
    | rw [if_neg (by omega), if_pos (by omega)]; congr 1; omega
    | rw [if_pos (by omega)]; congr 1; omega

@[simp] theorem length_be32Bytes (w : Word) : (be32Bytes w).length = 4 := rfl

theorem Memory.word_congr {m m' : Memory} (h : ∀ k < 4, m.read (a + k) = m'.read (a + k)) : m.word a = m'.word a := by
  unfold Memory.word
  rw [h 1 (by omega), h 2 (by omega), h 3 (by omega), show m.read a = m'.read a by simpa using h 0 (by omega)]

/-- Four bytes that are a word's, most significant first, read as that word. -/
theorem Memory.word_eq {w : Word} (h : ∀ k, (hk : k < 4) → m.read (a + k) = (be32Bytes w)[k]'(by simpa using hk)) :
    m.word a = w := by
  rw [← be32_be32Bytes w]
  unfold Memory.word
  have h0 := h 0 (by omega)
  have h1 := h 1 (by omega)
  have h2 := h 2 (by omega)
  have h3 := h 3 (by omega)
  simp only [be32Bytes, Nat.add_zero, List.getElem_cons_zero, List.getElem_cons_succ] at h0 h1 h2 h3
  rw [h0, h1, h2, h3]

/-- Equal words have equal bytes. -/
theorem Memory.read_of_word_eq {m' : Memory} {b k : Nat} (h : m.word a = m'.word b) (hk : k < 4) :
    m.read (a + k) = m'.read (b + k) := by
  have h := congrArg be32Bytes h
  unfold Memory.word at h
  rw [be32Bytes_be32, be32Bytes_be32] at h
  simp only [List.cons.injEq, and_true] at h
  match k, hk with
  | 0, _ => exact h.1
  | 1, _ => exact h.2.1
  | 2, _ => exact h.2.2.1
  | 3, _ => exact h.2.2.2

@[simp] theorem Memory.word_writeBytes_be32Bytes {w : Word} : (m.writeBytes a (be32Bytes w)).word a = w :=
  Memory.word_eq fun _ hk => Memory.read_writeBytes_in (by simpa using hk)

theorem Memory.word_writeBytes_out {bs : List Byte} (h : x + 4 ≤ a ∨ a + bs.length ≤ x) :
    (m.writeBytes a bs).word x = m.word x :=
  Memory.word_congr fun k hk => Memory.read_writeBytes_out (by omega)

/-! ## The canonical form -/

theorem Memory.wf_nil : Memory.wf [] := ⟨List.Pairwise.nil, fun _ h => by cases h⟩

theorem Memory.wf_erase (h : m.wf) : (m.erase a).wf :=
  ⟨h.1.filter _, fun c hc => h.2 c (List.mem_filter.1 hc).1⟩

theorem Memory.mem_insert {c : Host.Cell} : c ∈ m.insert a b ↔ c = (a, b) ∨ c ∈ m := by
  induction m with
  | nil => simp [Memory.insert]
  | cons d m ih =>
    simp only [Memory.insert]
    split
    · simp
    · simp [ih]; tauto

theorem Memory.pairwise_insert (h : m.Pairwise fun c d => c.1 < d.1) (ha : ∀ c ∈ m, c.1 ≠ a) :
    (m.insert a b).Pairwise fun c d => c.1 < d.1 := by
  induction m with
  | nil => simp [Memory.insert]
  | cons d m ih =>
    obtain ⟨hd, hm⟩ := List.pairwise_cons.1 h
    have hda : d.1 ≠ a := ha d (by simp)
    simp only [Memory.insert]
    split
    · next hlt =>
      refine List.pairwise_cons.2 ⟨fun c hc => ?_, h⟩
      rcases List.mem_cons.1 hc with rfl | hc
      · exact hlt
      · exact Nat.lt_trans hlt (hd c hc)
    · next hge =>
      refine List.pairwise_cons.2 ⟨fun c hc => ?_, ih hm fun c hc => ha c (by simp [hc])⟩
      rcases Memory.mem_insert.1 hc with rfl | hc
      · simp only; omega
      · exact hd c hc

/-- A write inside memory keeps the canonical form. -/
theorem Memory.wf_write (h : m.wf) (ha : a < Config.memSize) : (m.write a b).wf := by
  unfold Memory.write
  split
  · exact Memory.wf_erase h
  · next hb =>
    have he := Memory.wf_erase (a := a) h
    refine ⟨Memory.pairwise_insert he.1 fun c hc => Memory.fst_ne_of_mem_erase hc, fun c hc => ?_⟩
    rcases Memory.mem_insert.1 hc with rfl | hc
    · exact ⟨ha, hb⟩
    · exact he.2 c hc

theorem Memory.wf_writeBytes {bs : List Byte} (h : m.wf) (ha : a + bs.length ≤ Config.memSize) :
    (m.writeBytes a bs).wf := by
  induction bs generalizing m a with
  | nil => exact h
  | cons b bs ih =>
    simp only [List.length_cons] at ha
    exact ih (Memory.wf_write h (by omega)) (by omega)

theorem Memory.read_of_mem (h : m.Pairwise fun c d => c.1 < d.1) {c : Host.Cell} (hc : c ∈ m) : m.read c.1 = c.2 := by
  induction m with
  | nil => cases hc
  | cons d m ih =>
    obtain ⟨hd, hm⟩ := List.pairwise_cons.1 h
    obtain ⟨k, v⟩ := d
    rcases List.mem_cons.1 hc with rfl | hc
    · simp [Memory.read]
    · have := hd c hc
      simp only [Memory.read]
      rw [if_neg (by simp only at this; omega)]
      exact ih hm hc

theorem Memory.read_of_not_mem (h : ∀ c ∈ m, c.1 ≠ a) : m.read a = Memory.unlisted := by
  induction m with
  | nil => rfl
  | cons d m ih =>
    obtain ⟨k, v⟩ := d
    simp only [Memory.read]
    rw [if_neg (h (k, v) (by simp)), ih fun c hc => h c (by simp [hc])]

theorem Memory.mem_iff_read (h : m.wf) {c : Host.Cell} : c ∈ m ↔ m.read c.1 = c.2 ∧ c.2 ≠ Memory.unlisted := by
  constructor
  · exact fun hc => ⟨Memory.read_of_mem h.1 hc, (h.2 c hc).2⟩
  · rintro ⟨hr, hne⟩
    by_contra hc
    by_cases hex : ∃ d ∈ m, d.1 = c.1
    · obtain ⟨d, hd, hdc⟩ := hex
      have := Memory.read_of_mem h.1 hd
      rw [hdc, hr] at this
      exact hc (by rwa [show c = d from Prod.ext hdc.symm this])
    · push Not at hex
      exact hne (by rw [← hr, Memory.read_of_not_mem hex])

end Sys2Proof.Machine
end

