-- ==== Sys2Proof/Laws/State.lean ====
section
/-! SUPPORT. One lemma for each field and each update of State. -/

namespace Sys2Proof.Machine

variable (s : State) (r q : Reg) (v : Word) (m : Memory) (f : FaultInfo)

@[simp] theorem State.reg_eax : s.reg .eax = s.eax := rfl
@[simp] theorem State.reg_ebx : s.reg .ebx = s.ebx := rfl
@[simp] theorem State.reg_ecx : s.reg .ecx = s.ecx := rfl
@[simp] theorem State.reg_edx : s.reg .edx = s.edx := rfl
@[simp] theorem State.reg_sp : s.reg .sp = s.sp := rfl
@[simp] theorem State.reg_ip : s.reg .ip = s.ip := rfl

theorem State.reg_setReg : (s.setReg r v).reg q = if q = r then v else s.reg q := by
  cases r <;> cases q <;> rfl

@[simp] theorem State.reg_setReg_same : (s.setReg r v).reg r = v := by simp [State.reg_setReg]
theorem State.reg_setReg_ne (h : q ≠ r) : (s.setReg r v).reg q = s.reg q := by simp [State.reg_setReg, h]

@[simp] theorem State.setReg_mem : (s.setReg r v).mem = s.mem := by cases r <;> rfl
@[simp] theorem State.setReg_halted : (s.setReg r v).halted = s.halted := by cases r <;> rfl
@[simp] theorem State.setReg_faulted : (s.setReg r v).faulted = s.faulted := by cases r <;> rfl
@[simp] theorem State.setReg_draws : (s.setReg r v).draws = s.draws := by cases r <;> rfl

@[simp] theorem State.setReg_ip_ip : (s.setReg .ip v).ip = v := rfl
@[simp] theorem State.setReg_ip_sp : (s.setReg .ip v).sp = s.sp := rfl
theorem State.setReg_sp (h : r ≠ .sp) : (s.setReg r v).sp = s.sp := by cases r <;> first | rfl | contradiction
theorem State.setReg_ip (h : r ≠ .ip) : (s.setReg r v).ip = s.ip := by cases r <;> first | rfl | contradiction

@[simp] theorem State.setReg_self : s.setReg r (s.reg r) = s := by cases r <;> rfl
@[simp] theorem State.setReg_setReg (w : Word) : (s.setReg r v).setReg r w = s.setReg r w := by cases r <;> rfl

@[simp] theorem State.setMem_mem : (s.setMem m).mem = m := rfl
@[simp] theorem State.setMem_reg : (s.setMem m).reg r = s.reg r := by cases r <;> rfl
@[simp] theorem State.setMem_eax : (s.setMem m).eax = s.eax := rfl
@[simp] theorem State.setMem_ebx : (s.setMem m).ebx = s.ebx := rfl
@[simp] theorem State.setMem_ecx : (s.setMem m).ecx = s.ecx := rfl
@[simp] theorem State.setMem_edx : (s.setMem m).edx = s.edx := rfl
@[simp] theorem State.setMem_sp : (s.setMem m).sp = s.sp := rfl
@[simp] theorem State.setMem_ip : (s.setMem m).ip = s.ip := rfl
@[simp] theorem State.setMem_halted : (s.setMem m).halted = s.halted := rfl
@[simp] theorem State.setMem_faulted : (s.setMem m).faulted = s.faulted := rfl
@[simp] theorem State.setMem_draws : (s.setMem m).draws = s.draws := rfl
@[simp] theorem State.setMem_setMem (m' : Memory) : (s.setMem m).setMem m' = s.setMem m' := rfl

@[simp] theorem State.raiseFault_mem : (s.raiseFault f).mem = s.mem := rfl
@[simp] theorem State.raiseFault_halted : (s.raiseFault f).halted = true := rfl
@[simp] theorem State.raiseFault_faulted : (s.raiseFault f).faulted = true := rfl
@[simp] theorem State.raiseFault_ip : (s.raiseFault f).ip = Config.ipAfterFault s.draws := rfl
@[simp] theorem State.raiseFault_draws : (s.raiseFault f).draws = s.draws + 1 := rfl
theorem State.raiseFault_reg (h : r ≠ .ip) : (s.raiseFault f).reg r = s.reg r := by
  cases r <;> first | rfl | contradiction

@[simp] theorem State.halt_mem : s.halt.mem = s.mem := rfl
@[simp] theorem State.halt_reg : s.halt.reg r = s.reg r := by cases r <;> rfl
@[simp] theorem State.halt_halted : s.halt.halted = true := rfl
@[simp] theorem State.halt_faulted : s.halt.faulted = s.faulted := rfl
@[simp] theorem State.halt_draws : s.halt.draws = s.draws := rfl

/-- Two states with the same registers, status flags, memory and draw counter are equal. -/
theorem State.ext_reg {s t : State} (hr : ∀ r, s.reg r = t.reg r) (hh : s.halted = t.halted)
    (hf : s.faulted = t.faulted) (hm : s.mem = t.mem) (hd : s.draws = t.draws) : s = t := by
  cases s; cases t
  simp only [State.mk.injEq]
  exact ⟨hr .eax, hr .ebx, hr .ecx, hr .edx, hr .sp, hr .ip, hh, hf, hm, hd⟩

end Sys2Proof.Machine
end

