-- ==== Sys2Proof/Laws/Ops.lean ====
section
/-! SUPPORT. One lemma for each shared operation that says all it can do: checked accesses, the block move, operand
evaluation, the two stack primitives, the end of an instruction. Callers cite these and do not unfold the operation. -/

namespace Sys2Proof

@[simp] theorem ok_bind {α β : Type} (x : α) (f : α → Except FaultInfo β) : (Except.ok x >>= f) = f x := rfl

@[simp] theorem error_bind {α β : Type} (e : FaultInfo) (f : α → Except FaultInfo β) :
    ((Except.error e : Except FaultInfo α) >>= f) = Except.error e := rfl

/-- What a bind that succeeds went through. -/
theorem bind_eq_ok {α β : Type} {x : Except FaultInfo α} {f : α → Except FaultInfo β} {b : β}
    (h : (x >>= f) = .ok b) : ∃ a, x = .ok a ∧ f a = .ok b := by
  cases x with
  | error e => simp at h
  | ok a => exact ⟨a, rfl, by simpa using h⟩

end Sys2Proof

namespace Sys2Proof.Machine

variable {s t : State} {m : Memory} {a : Int} {o : Operand} {v : Word}

/-! ## Checked accesses -/

theorem memRead1_eq : memRead1 m a = if inBounds a 1 then .ok (m.read a.toNat) else .error .outOfBounds := rfl
theorem memRead4_eq : memRead4 m a = if inBounds a 4 then .ok (m.word a.toNat) else .error .outOfBounds := rfl

theorem memRead1_ok (h : inBounds a 1) : memRead1 m a = .ok (m.read a.toNat) := if_pos h
theorem memRead1_error (h : ¬ inBounds a 1) : memRead1 m a = .error .outOfBounds := if_neg h
theorem memRead4_ok (h : inBounds a 4) : memRead4 m a = .ok (m.word a.toNat) := if_pos h
theorem memRead4_error (h : ¬ inBounds a 4) : memRead4 m a = .error .outOfBounds := if_neg h
theorem memWrite1_ok {b : Byte} (h : inBounds a 1) : memWrite1 m a b = .ok (m.write a.toNat b) := if_pos h
theorem memWrite1_error {b : Byte} (h : ¬ inBounds a 1) : memWrite1 m a b = .error .outOfBounds := if_neg h
theorem memWrite4_ok (h : inBounds a 4) : memWrite4 m a v = .ok (m.writeBytes a.toNat (be32Bytes v)) := if_pos h

theorem memMove_ok {dst src len : Int} (h : 0 ≤ len ∧ inBounds src len ∧ inBounds dst len) :
    memMove m dst src len = .ok (m.writeBytes dst.toNat (m.readBytes src.toNat len.toNat)) := if_pos h

theorem memMove_error {dst src len : Int} (h : ¬ (0 ≤ len ∧ inBounds src len ∧ inBounds dst len)) :
    memMove m dst src len = .error .stackBounds := if_neg h

theorem readable_mem {x : Word} : Readable (.mem x) ↔ inBounds x.toInt 1 := by
  simp only [Readable, inBounds, Config.memSize]; omega

/-! ## Operands -/

theorem toNat_toInt_of_nonneg {x : Word} (h : 0 ≤ x.toInt) : x.toInt.toNat = x.toNat := by
  have := x.isLt
  rw [BitVec.toInt_eq_toNat_cond] at h ⊢
  split at h <;> omega

theorem toInt_of_nonneg {x : Word} (h : 0 ≤ x.toInt) : x.toInt = (x.toNat : Int) := by
  have := toNat_toInt_of_nonneg h
  omega

theorem eval_of_readable {e : Word} (h : Readable o) : eval s e o = .ok (valueOf s e o) := by
  cases o with
  | const v => rfl
  | reg r => cases r <;> rfl
  | mem x =>
    have hb := readable_mem.1 h
    simp only [eval, memRead1_ok hb, valueOf, toNat_toInt_of_nonneg hb.1]
    rfl

theorem eval_of_not_readable {e : Word} (h : ¬ Readable o) : eval s e o = .error .outOfBounds := by
  cases o with
  | const v => exact absurd trivial h
  | reg r => exact absurd trivial h
  | mem x =>
    rw [readable_mem] at h
    simp only [eval, memRead1_error h]
    rfl

theorem eval_eq_ok {e : Word} : eval s e o = .ok v ↔ Readable o ∧ v = valueOf s e o := by
  by_cases h : Readable o
  · simp [eval_of_readable h, h, eq_comm]
  · simp [eval_of_not_readable h, h]

theorem firstValue_eq {o₁ o₂ : Operand} : firstValue s o₁ o₂ = valueOf s (firstEnd s o₂) o₁ := rfl
theorem lastValue_eq : lastValue s o = valueOf s (lastEnd s) o := rfl

theorem arithOld_eq {r : Reg} : arithOld s r o = oldValue s r o := by
  unfold arithOld oldValue arithDstRead
  split
  · cases Config.arithDstRead <;> rfl
  · rfl

/-! ## The end of an instruction -/

@[simp] theorem finish_ok : finish s (.ok t) = .next t := rfl
@[simp] theorem finish_error {f : FaultInfo} : finish s (.error f) = .next (s.raiseFault f) := rfl

/-- Every instruction that ends in `finish` answers a next state: its effect, or the fault taken from `s`. -/
theorem finish_cases {r : Except FaultInfo State} (h : finish s r = .next t) :
    r = .ok t ∨ ∃ f, r = .error f ∧ t = s.raiseFault f := by
  cases r with
  | ok u => left; simp only [finish_ok, Host.Outcome.next.injEq] at h; rw [h]
  | error f => right; simp only [finish_error, Host.Outcome.next.injEq] at h; exact ⟨f, rfl, h.symm⟩

theorem raiseFault_faultedFrom {f : FaultInfo} : FaultedFrom s (s.raiseFault f) :=
  ⟨rfl, rfl, rfl, rfl, fun _ hr => State.raiseFault_reg s _ f (by simpa using hr), rfl⟩

/-! ## Push -/

/-- Memory after a push of `v` onto a stack of `n` entries at `a` (R141). -/
def pushedMem (m : Memory) (a n : Nat) (v : Word) : Memory :=
  ((m.writeBytes (a + 8) (m.readBytes (a + 4) (4 * n))).writeBytes a (be32Bytes (wrap32 ((n : Int) + 1)))).writeBytes
    (a + 4) (be32Bytes v)

theorem stackCount_eq (h : 0 ≤ s.sp.toInt) : (s.mem.word s.sp.toInt.toNat).toInt = stackCount s := by
  rw [toNat_toInt_of_nonneg h]; rfl

theorem push_ok (h : CanPush s) :
    push v s = .ok (s.setMem (pushedMem s.mem (stackBase s) (stackCount s).toNat v)) := by
  obtain ⟨h0, h4, hc, hr⟩ := h
  have hn := toInt_of_nonneg h0
  have hb : s.sp.toInt.toNat = stackBase s := toNat_toInt_of_nonneg h0
  unfold push
  rw [memRead4_ok ⟨h0, by simp only [Config.memSize]; omega⟩]
  simp only [ok_bind, stackCount_eq h0]
  rw [if_neg (by omega), memMove_ok (by simp only [inBounds, Config.memSize]; omega), ok_bind,
    memWrite4_ok (by simp only [inBounds, Config.memSize]; omega), ok_bind,
    memWrite4_ok (by simp only [inBounds, Config.memSize]; omega), ok_bind]
  have e1 : (s.sp.toInt + 8).toNat = stackBase s + 8 := by omega
  have e2 : (s.sp.toInt + 4).toNat = stackBase s + 4 := by omega
  have e3 : (4 * stackCount s).toNat = 4 * (stackCount s).toNat := by omega
  have e4 : (((stackCount s).toNat : Nat) : Int) = stackCount s := by omega
  rw [e1, e2, e3, hb, pushedMem, e4]

theorem push_error (h : ¬ CanPush s) : ∃ f, push v s = .error f := by
  unfold push
  by_cases hb : inBounds s.sp.toInt 4
  · have h0 : 0 ≤ s.sp.toInt := hb.1
    rw [memRead4_ok hb, ok_bind, stackCount_eq h0]
    split
    · exact ⟨_, rfl⟩
    · next hc =>
      rw [memMove_error, error_bind]
      · exact ⟨_, rfl⟩
      · intro hm
        refine h ⟨h0, ?_, by omega, ?_⟩ <;> simp only [inBounds, Config.memSize] at hb hm <;> omega
  · rw [memRead4_error hb]; exact ⟨_, rfl⟩

theorem push_eq_ok :
    push v s = .ok t ↔ CanPush s ∧ t = s.setMem (pushedMem s.mem (stackBase s) (stackCount s).toNat v) := by
  by_cases h : CanPush s
  · simp [push_ok h, h, eq_comm]
  · obtain ⟨f, hf⟩ := push_error (v := v) h
    simp [hf, h]

section Pushed

variable {b n x : Nat}

theorem pushedMem_word_count : (pushedMem m b n v).word b = wrap32 ((n : Int) + 1) := by
  unfold pushedMem
  rw [Memory.word_writeBytes_out (by omega), Memory.word_writeBytes_be32Bytes]

theorem pushedMem_word_top : (pushedMem m b n v).word (b + 4) = v := Memory.word_writeBytes_be32Bytes

theorem pushedMem_read_shifted (h : b + 8 ≤ x) (h' : x < b + 8 + 4 * n) :
    (pushedMem m b n v).read x = m.read (x - 4) := by
  unfold pushedMem
  rw [Memory.read_writeBytes_out (by simp only [length_be32Bytes]; omega),
    Memory.read_writeBytes_out (by simp only [length_be32Bytes]; omega),
    Memory.read_writeBytes, if_pos (by simp only [Memory.length_readBytes]; omega), List.getD_eq_getElem?_getD,
    Memory.getElem?_readBytes (by omega), Option.getD_some]
  congr 1; omega

theorem pushedMem_read_out (h : x < b ∨ b + 8 + 4 * n ≤ x) : (pushedMem m b n v).read x = m.read x := by
  unfold pushedMem
  rw [Memory.read_writeBytes_out (by simp only [length_be32Bytes]; omega),
    Memory.read_writeBytes_out (by simp only [length_be32Bytes]; omega),
    Memory.read_writeBytes_out (by simp only [Memory.length_readBytes]; omega)]

theorem pushedMem_wf (hm : m.wf) (h : b + 8 + 4 * n ≤ Config.memSize) : (pushedMem m b n v).wf := by
  refine Memory.wf_writeBytes (Memory.wf_writeBytes (Memory.wf_writeBytes hm ?_) ?_) ?_ <;>
    simp only [Memory.length_readBytes, length_be32Bytes] <;> omega

theorem pushedMem_word_shifted (h : b + 8 ≤ x) (h' : x + 4 ≤ b + 8 + 4 * n) :
    (pushedMem m b n v).word x = m.word (x - 4) := by
  unfold Memory.word
  rw [pushedMem_read_shifted (by omega) (by omega), pushedMem_read_shifted (by omega) (by omega),
    pushedMem_read_shifted (by omega) (by omega), pushedMem_read_shifted (by omega) (by omega)]
  have e1 : x + 1 - 4 = x - 4 + 1 := by omega
  have e2 : x + 2 - 4 = x - 4 + 2 := by omega
  have e3 : x + 3 - 4 = x - 4 + 3 := by omega
  rw [e1, e2, e3]

end Pushed

/-- The count after a push that fits. -/
theorem stackCount_pushed (h : CanPush s) :
    stackCount (s.setMem (pushedMem s.mem (stackBase s) (stackCount s).toNat v)) = stackCount s + 1 := by
  obtain ⟨h0, h4, hc, hr⟩ := h
  show ((pushedMem s.mem (stackBase s) _ v).word (stackBase s)).toInt = _
  rw [pushedMem_word_count, wrap32, BitVec.toInt_ofInt, Int.bmod_eq_of_le] <;> omega

/-- A second push fits when there is room for two. -/
theorem canPush_pushed (h : CanPush s) (hr : s.sp.toInt + 8 + 4 * (stackCount s + 1) ≤ 0x10000) :
    CanPush (s.setMem (pushedMem s.mem (stackBase s) (stackCount s).toNat v)) := by
  have hn := stackCount_pushed (v := v) h
  obtain ⟨h0, h4, hc, -⟩ := h
  unfold CanPush
  rw [hn]
  simp only [State.setMem_sp]; omega

/-! ## Pop -/

/-- Memory after a pop from a stack of `n` entries at `a` (R143). -/
def poppedMem (m : Memory) (a n : Nat) : Memory :=
  (m.writeBytes (a + 4) (m.readBytes (a + 8) (4 * (n - 1)))).writeBytes a (be32Bytes (wrap32 ((n : Int) - 1)))

theorem pop_ok (h : CanPop s) :
    pop s = .ok (s.mem.word (stackBase s + 4), s.setMem (poppedMem s.mem (stackBase s) (stackCount s).toNat)) := by
  obtain ⟨h0, h4, hc, hr⟩ := h
  have hn := toInt_of_nonneg h0
  have hb : s.sp.toInt.toNat = stackBase s := toNat_toInt_of_nonneg h0
  unfold pop
  rw [memRead4_ok ⟨h0, by simp only [Config.memSize]; omega⟩]
  simp only [ok_bind, stackCount_eq h0]
  rw [if_neg (by omega), memRead4_ok (by simp only [inBounds, Config.memSize]; omega), ok_bind,
    memMove_ok (by simp only [inBounds, Config.memSize]; omega), ok_bind,
    memWrite4_ok (by simp only [inBounds, Config.memSize]; omega), ok_bind]
  have e1 : (s.sp.toInt + 8).toNat = stackBase s + 8 := by omega
  have e2 : (s.sp.toInt + 4).toNat = stackBase s + 4 := by omega
  have e3 : (4 * (stackCount s - 1)).toNat = 4 * ((stackCount s).toNat - 1) := by omega
  have e4 : (((stackCount s).toNat : Nat) : Int) = stackCount s := by omega
  rw [e1, e2, e3, hb, poppedMem, e4]

theorem pop_error (h : ¬ CanPop s) : ∃ f, pop s = .error f := by
  unfold pop
  by_cases hb : inBounds s.sp.toInt 4
  · have h0 : 0 ≤ s.sp.toInt := hb.1
    rw [memRead4_ok hb, ok_bind, stackCount_eq h0]
    split
    · exact ⟨_, rfl⟩
    · next hc =>
      by_cases hb2 : inBounds (s.sp.toInt + 4) 4
      · rw [memRead4_ok hb2, ok_bind, memMove_error, error_bind]
        · exact ⟨_, rfl⟩
        · intro hm
          refine h ⟨h0, ?_, by omega, ?_⟩ <;> simp only [inBounds, Config.memSize] at hb hm <;> omega
      · rw [memRead4_error hb2]; exact ⟨_, rfl⟩
  · rw [memRead4_error hb]; exact ⟨_, rfl⟩

theorem pop_eq_ok :
    pop s = .ok (v, t) ↔ CanPop s ∧ v = s.mem.word (stackBase s + 4) ∧
      t = s.setMem (poppedMem s.mem (stackBase s) (stackCount s).toNat) := by
  by_cases h : CanPop s
  · simp [pop_ok h, h, eq_comm]
  · obtain ⟨f, hf⟩ := pop_error h
    simp [hf, h]

section Popped

variable {b n x : Nat}

theorem poppedMem_word_count : (poppedMem m b n).word b = wrap32 ((n : Int) - 1) := Memory.word_writeBytes_be32Bytes

theorem poppedMem_read_shifted (h : b + 4 ≤ x) (h' : x < b + 4 + 4 * (n - 1)) :
    (poppedMem m b n).read x = m.read (x + 4) := by
  unfold poppedMem
  rw [Memory.read_writeBytes_out (by simp only [length_be32Bytes]; omega),
    Memory.read_writeBytes, if_pos (by simp only [Memory.length_readBytes]; omega), List.getD_eq_getElem?_getD,
    Memory.getElem?_readBytes (by omega), Option.getD_some]
  congr 1; omega

theorem poppedMem_read_out (h : x < b ∨ b + 4 + 4 * (n - 1) ≤ x) : (poppedMem m b n).read x = m.read x := by
  unfold poppedMem
  rw [Memory.read_writeBytes_out (by simp only [length_be32Bytes]; omega),
    Memory.read_writeBytes_out (by simp only [Memory.length_readBytes]; omega)]

theorem poppedMem_wf (hm : m.wf) (h : b + 4 + 4 * n ≤ Config.memSize) : (poppedMem m b n).wf := by
  refine Memory.wf_writeBytes (Memory.wf_writeBytes hm ?_) ?_ <;>
    simp only [Memory.length_readBytes, length_be32Bytes] <;> omega

theorem poppedMem_word_shifted (h : b + 4 ≤ x) (h' : x + 4 ≤ b + 4 + 4 * (n - 1)) :
    (poppedMem m b n).word x = m.word (x + 4) := by
  unfold Memory.word
  rw [poppedMem_read_shifted (by omega) (by omega), poppedMem_read_shifted (by omega) (by omega),
    poppedMem_read_shifted (by omega) (by omega), poppedMem_read_shifted (by omega) (by omega)]

end Popped

/-- The count word a pop that fits writes. -/
theorem toInt_popped_count (h : CanPop s) : (wrap32 (((stackCount s).toNat : Int) - 1)).toInt = stackCount s - 1 := by
  obtain ⟨h0, h4, hc, hr⟩ := h
  rw [wrap32, BitVec.toInt_ofInt, Int.bmod_eq_of_le] <;> omega

section AfterPop

variable {r : Reg} {w : Word}

theorem stackBase_popped (h : r ≠ .sp) : stackBase ((s.setMem m).setReg r w) = stackBase s := by
  unfold stackBase; rw [State.setReg_sp _ _ _ h]; rfl

/-- The count after a pop that fits, to any register but SP. -/
theorem stackCount_popped (h : r ≠ .sp) (hc : CanPop s) :
    stackCount ((s.setMem (poppedMem s.mem (stackBase s) (stackCount s).toNat)).setReg r w) = stackCount s - 1 := by
  show (Memory.word _ (stackBase _)).toInt = _
  rw [stackBase_popped h, State.setReg_mem, State.setMem_mem, poppedMem_word_count]
  exact toInt_popped_count hc

/-- A second pop fits when there are two entries. -/
theorem canPop_popped (h : r ≠ .sp) (hc : CanPop s) (h2 : 2 ≤ stackCount s) :
    CanPop ((s.setMem (poppedMem s.mem (stackBase s) (stackCount s).toNat)).setReg r w) := by
  have hn := stackCount_popped (w := w) h hc
  obtain ⟨h0, h4, -, hr⟩ := hc
  unfold CanPop
  rw [hn, State.setReg_sp _ _ _ h]
  simp only [State.setMem_sp]; omega

end AfterPop

/-- A pop fits right after a push that fitted. -/
theorem canPop_pushed (h : CanPush s) : CanPop (s.setMem (pushedMem s.mem (stackBase s) (stackCount s).toNat v)) := by
  have hn := stackCount_pushed (v := v) h
  obtain ⟨h0, h4, hc, hr⟩ := h
  unfold CanPop
  rw [hn]
  simp only [State.setMem_sp]; omega

end Sys2Proof.Machine
end

