-- ==== Sys2Proof/Laws/Decode.lean ====
section
/-! SUPPORT. One lemma for each function of the decoder, in both directions: what it reads from an encoded operand, and what
the bytes were when it succeeds. -/

namespace Sys2Proof

variable {N : Numbering} {b ff : Byte} {i : Nat} {bs rest : List Byte} {o : Operand} {r : Reg} {m : Mnemonic}

/-! ## Numbering -/

theorem Mnemonic.mem_all (m : Mnemonic) : m ∈ Mnemonic.all := by cases m <;> decide

theorem Reg.mem_all (r : Reg) : r ∈ Reg.all := by cases r <;> decide

theorem Numbering.mnemonicOf_eq_none : N.mnemonicOf b = none ↔ ∀ m, N.opc m ≠ b := by
  simp [Numbering.mnemonicOf, Mnemonic.mem_all]

theorem Numbering.regOf_eq_none : N.regOf b = none ↔ ∀ r, N.rid r ≠ b := by
  simp [Numbering.regOf, Reg.mem_all]

/-- `OPC⁻¹` inverts `OPC` (R93). -/
theorem Numbering.mnemonicOf_eq_some : N.mnemonicOf b = some m ↔ N.opc m = b := by
  constructor
  · intro h
    simpa using List.find?_some h
  · intro h
    cases hm : N.mnemonicOf b with
    | none => exact absurd h (Numbering.mnemonicOf_eq_none.1 hm m)
    | some m' =>
      have h' : N.opc m' = b := by simpa using List.find?_some hm
      rw [N.opc_injective (h'.trans h.symm)]

/-- `RegOf` inverts `RID` (R22). -/
theorem Numbering.regOf_eq_some : N.regOf b = some r ↔ N.rid r = b := by
  constructor
  · intro h
    simpa using List.find?_some h
  · intro h
    cases hr : N.regOf b with
    | none => exact absurd h (Numbering.regOf_eq_none.1 hr r)
    | some r' =>
      have h' : N.rid r' = b := by simpa using List.find?_some hr
      rw [N.rid_injective (h'.trans h.symm)]

@[simp] theorem Numbering.mnemonicOf_opc : N.mnemonicOf (N.opc m) = some m := Numbering.mnemonicOf_eq_some.2 rfl

@[simp] theorem Numbering.regOf_rid : N.regOf (N.rid r) = some r := Numbering.regOf_eq_some.2 rfl

/-! ## Byte readers -/

@[simp] theorem next1_cons : next1 (b :: bs) = .ok (b, bs) := rfl

@[simp] theorem next1_nil : next1 [] = .error .outOfBounds := rfl

theorem next1_eq_ok : next1 bs = .ok (b, rest) ↔ bs = b :: rest := by
  cases bs <;> simp

@[simp] theorem next4_be32Bytes {v : Word} : next4 (be32Bytes v ++ bs) = .ok (v, bs) := by
  simp only [be32Bytes, List.cons_append, List.nil_append, next4, Machine.be32_be32Bytes]

theorem next4_eq_ok {v : Word} : next4 bs = .ok (v, rest) ↔ bs = be32Bytes v ++ rest := by
  constructor
  · intro h
    unfold next4 at h
    split at h
    · simp only [Except.ok.injEq, Prod.mk.injEq] at h
      obtain ⟨rfl, rfl⟩ := h
      simp [Machine.be32Bytes_be32]
    · cases h
  · rintro rfl
    exact next4_be32Bytes

theorem next4_short (h : bs.length < 4) : next4 bs = .error .outOfBounds := by
  match bs with
  | [] | [_] | [_, _] | [_, _, _] => rfl
  | _ :: _ :: _ :: _ :: _ => simp only [List.length_cons] at h; omega

@[simp] theorem readRaw_rid : readRaw N (N.rid r :: bs) = .ok (r, bs) := by
  simp [readRaw]

theorem readRaw_eq_ok : readRaw N bs = .ok (r, rest) ↔ bs = N.rid r :: rest := by
  constructor
  · intro h
    obtain ⟨⟨b, bs'⟩, h1, h2⟩ := bind_eq_ok h
    rw [next1_eq_ok] at h1
    simp only at h2
    split at h2
    · next r' hr =>
      simp only [Except.ok.injEq, Prod.mk.injEq] at h2
      obtain ⟨rfl, rfl⟩ := h2
      rw [h1, Numbering.regOf_eq_some.1 hr]
    · cases h2
  · rintro rfl
    exact readRaw_rid

theorem readRaw_invalid (h : ∀ r, N.rid r ≠ b) : readRaw N (b :: bs) = .error .invalidRegister := by
  simp [readRaw, Numbering.regOf_eq_none.2 h]

/-! ## The decoder block's operands -/

@[simp] theorem map_operand_extract (c : Int) (os : List Operand) : (extract c os).map Extracted.operand = os := by
  induction os generalizing c with
  | nil => rfl
  | cons o os ih => simp [extract, ih]

@[simp] theorem length_extract (c : Int) (os : List Operand) : (extract c os).length = os.length := by
  rw [← List.length_map (f := Extracted.operand), map_operand_extract]

/-! ## Flag fields -/

theorem tagAt_eq_reserved : tagAt ff i = .reserved ↔ field ff i = 0 := by
  unfold tagAt; generalize field ff i = t; revert t; decide

theorem tagAt_eq_constant : tagAt ff i = .constant ↔ field ff i = 1 := by
  unfold tagAt; generalize field ff i = t; revert t; decide

theorem tagAt_eq_register : tagAt ff i = .register ↔ field ff i = 2 := by
  unfold tagAt; generalize field ff i = t; revert t; decide

theorem tagAt_eq_memoryValue : tagAt ff i = .memoryValue ↔ field ff i = 3 := by
  unfold tagAt; generalize field ff i = t; revert t; decide

theorem Operand.tag_ne_reserved (o : Operand) : o.tag ≠ .reserved := by cases o <;> simp [Operand.tag]

/-- The table's payload length of a field is that of an operand whose tag stands in it. -/
theorem tagLen_field (h : tagAt ff i = o.tag) : Machine.tagLen (field ff i) = o.payloadLen := by
  unfold tagAt at h
  generalize field ff i = t at h
  revert h
  cases o <;> simp only [Operand.tag, Operand.payloadLen] <;> revert t <;> decide

theorem tagAt_congr {ff' : Byte} (h : field ff i = field ff' i) : tagAt ff i = tagAt ff' i := by
  unfold tagAt; rw [h]

/-- A typed read looks at its own flag field alone. -/
theorem readTyped_congr {ff' : Byte} (h : field ff i = field ff' i) : readTyped N ff i bs = readTyped N ff' i bs := by
  unfold readTyped; rw [tagAt_congr h]

/-! ## Typed operands -/

theorem Operand.length_bytes : (o.bytes N).length = o.payloadLen := by cases o <;> rfl

/-- An operand whose tag stands in the consulted field is read back from its payload. -/
theorem readTyped_bytes (h : tagAt ff i = o.tag) : readTyped N ff i (o.bytes N ++ bs) = .ok (o, bs) := by
  unfold readTyped
  cases o <;> simp [h, Operand.tag, Operand.bytes]

/-- What was read, when a typed read succeeds. -/
theorem readTyped_eq_ok :
    readTyped N ff i bs = .ok (o, rest) ↔ tagAt ff i = o.tag ∧ bs = o.bytes N ++ rest := by
  constructor
  · intro h
    unfold readTyped at h
    split at h
    · cases h
    · next ht =>
      obtain ⟨⟨v, bs'⟩, h1, h2⟩ := bind_eq_ok h
      simp only [Except.ok.injEq, Prod.mk.injEq] at h2
      obtain ⟨rfl, rfl⟩ := h2
      exact ⟨ht, next4_eq_ok.1 h1⟩
    · next ht =>
      obtain ⟨⟨q, bs'⟩, h1, h2⟩ := bind_eq_ok h
      simp only [Except.ok.injEq, Prod.mk.injEq] at h2
      obtain ⟨rfl, rfl⟩ := h2
      exact ⟨ht, readRaw_eq_ok.1 h1⟩
    · next ht =>
      obtain ⟨⟨v, bs'⟩, h1, h2⟩ := bind_eq_ok h
      simp only [Except.ok.injEq, Prod.mk.injEq] at h2
      obtain ⟨rfl, rfl⟩ := h2
      exact ⟨ht, next4_eq_ok.1 h1⟩
  · rintro ⟨ht, rfl⟩
    exact readTyped_bytes ht

theorem readTyped_reserved (h : tagAt ff i = .reserved) : readTyped N ff i bs = .error .invalidOperandType := by
  simp [readTyped, h]

/-! ## The layouts, read backwards: what the bytes were when a layout's decode succeeds -/

theorem decodeArith_eq_ok {mk : Byte → Reg → Operand → Instr} {j : Instr} (h : decodeArith N mk bs = .ok (j, rest)) :
    ∃ ff r v, j = mk ff r v ∧ tagAt ff 1 = v.tag ∧ bs = ff :: N.rid r :: (v.bytes N ++ rest) := by
  obtain ⟨⟨ff, bs₁⟩, h₁, h⟩ := bind_eq_ok h
  obtain ⟨⟨r, bs₂⟩, h₂, h⟩ := bind_eq_ok h
  obtain ⟨⟨v, bs₃⟩, h₃, h⟩ := bind_eq_ok h
  cases h
  obtain ⟨ht, rfl⟩ := readTyped_eq_ok.1 h₃
  obtain rfl := readRaw_eq_ok.1 h₂
  exact ⟨ff, r, v, rfl, ht, next1_eq_ok.1 h₁⟩

theorem decodeCond_eq_ok {mk : Byte → Operand → Operand → Instr} {j : Instr}
    (h : decodeCond N mk bs = .ok (j, rest)) :
    ∃ ff d v, j = mk ff d v ∧ tagAt ff 0 = d.tag ∧ tagAt ff 1 = v.tag ∧
      bs = ff :: (d.bytes N ++ (v.bytes N ++ rest)) := by
  obtain ⟨⟨ff, bs₁⟩, h₁, h⟩ := bind_eq_ok h
  obtain ⟨⟨d, bs₂⟩, h₂, h⟩ := bind_eq_ok h
  obtain ⟨⟨v, bs₃⟩, h₃, h⟩ := bind_eq_ok h
  cases h
  obtain ⟨hv, rfl⟩ := readTyped_eq_ok.1 h₃
  obtain ⟨hd, rfl⟩ := readTyped_eq_ok.1 h₂
  exact ⟨ff, d, v, rfl, hd, hv, next1_eq_ok.1 h₁⟩

theorem decodeStack_eq_ok {mk : Byte → Reg → Instr} {j : Instr} (h : decodeStack N mk bs = .ok (j, rest)) :
    ∃ ff r, j = mk ff r ∧ bs = ff :: N.rid r :: rest := by
  obtain ⟨⟨ff, bs₁⟩, h₁, h⟩ := bind_eq_ok h
  obtain ⟨⟨r, bs₂⟩, h₂, h⟩ := bind_eq_ok h
  cases h
  obtain rfl := readRaw_eq_ok.1 h₂
  exact ⟨ff, r, rfl, next1_eq_ok.1 h₁⟩

theorem decodeJmp_eq_ok {j : Instr} (h : decodeJmp N bs = .ok (j, rest)) :
    ∃ ff d, j = .jmp ff d ∧ tagAt ff 0 = d.tag ∧ bs = ff :: (d.bytes N ++ rest) := by
  obtain ⟨⟨ff, bs₁⟩, h₁, h⟩ := bind_eq_ok h
  obtain ⟨⟨d, bs₂⟩, h₂, h⟩ := bind_eq_ok h
  cases h
  obtain ⟨hd, rfl⟩ := readTyped_eq_ok.1 h₂
  exact ⟨ff, d, rfl, hd, next1_eq_ok.1 h₁⟩

theorem decodeInt_eq_ok {j : Instr} (h : decodeInt bs = .ok (j, rest)) : ∃ ff, j = .int ff ∧ bs = ff :: rest := by
  obtain ⟨⟨ff, bs₁⟩, h₁, h⟩ := bind_eq_ok h
  cases h
  exact ⟨ff, rfl, next1_eq_ok.1 h₁⟩

theorem decodeMov_eq_ok {j : Instr} (h : decodeMov N bs = .ok (j, rest)) :
    ∃ ff d v, j = .mov ff d v ∧ tagAt ff 0 = d.tag ∧ tagAt ff 1 = v.tag ∧ d.tag ≠ .memoryValue ∧
      bs = ff :: (d.bytes N ++ (v.bytes N ++ rest)) := by
  obtain ⟨⟨ff, bs₁⟩, h₁, h₂⟩ := bind_eq_ok h
  simp only at h₂
  split at h₂ <;> rename_i ht
  · cases h₂
  · cases h₂
  all_goals
    obtain ⟨⟨d, bs₂⟩, h₃, h₂⟩ := bind_eq_ok h₂
    obtain ⟨⟨v, bs₃⟩, h₄, h₂⟩ := bind_eq_ok h₂
    cases h₂
    obtain ⟨hv, rfl⟩ := readTyped_eq_ok.1 h₄
    obtain ⟨hd, rfl⟩ := readTyped_eq_ok.1 h₃
    exact ⟨ff, d, v, rfl, hd, hv, by rw [← hd, ht]; decide, next1_eq_ok.1 h₁⟩

/-- What selects the layout: the mnemonic of the opcode byte, NOP where there is none (R93). -/
theorem decodeWith_cons {op : Byte} :
    decodeWith N (op :: bs) =
      match (N.mnemonicOf op).getD .nop with
      | .nop => .ok (.nop op, bs)
      | .mov => decodeMov N bs
      | .add => decodeArith N .add bs
      | .sub => decodeArith N .sub bs
      | .mul => decodeArith N .mul bs
      | .div => decodeArith N .div bs
      | .push => decodeStack N .push bs
      | .pop => decodeStack N .pop bs
      | .apush => .ok (.apush, bs)
      | .apop => .ok (.apop, bs)
      | .jmp => decodeJmp N bs
      | .jez => decodeCond N .jez bs
      | .jnz => decodeCond N .jnz bs
      | .jlz => decodeCond N .jlz bs
      | .jgz => decodeCond N .jgz bs
      | .hwid => .ok (.hwid, bs)
      | .hlt => .ok (.hlt, bs)
      | .int => decodeInt bs := rfl

@[simp] theorem decodeWith_nil : decodeWith N [] = .error .outOfBounds := rfl

/-- A mnemonic other than NOP is selected only by its own code. -/
theorem opc_of_getD {op : Byte} (hm : m ≠ .nop) (h : (N.mnemonicOf op).getD .nop = m) : N.opc m = op := by
  cases ho : N.mnemonicOf op with
  | none => rw [ho] at h; exact absurd h.symm hm
  | some m' =>
    rw [ho, Option.getD_some] at h
    subst h
    exact Numbering.mnemonicOf_eq_some.1 ho

/-! ## Lengths -/

theorem length_encodeWith (i : Instr) : (encodeWith N i).length = i.len := by
  cases i <;> simp [encodeWith, Instr.len, Operand.length_bytes] <;> omega

theorem len_pos (i : Instr) : 1 ≤ i.len := by
  cases i <;> simp [Instr.len] <;> omega

theorem payloadLen_le (o : Operand) : 1 ≤ o.payloadLen ∧ o.payloadLen ≤ 4 := by
  cases o <;> simp [Operand.payloadLen]

theorem len_le (i : Instr) : i.len ≤ maxInstrBytes := by
  cases i <;> simp only [Instr.len, maxInstrBytes] <;> (try omega)
  all_goals first
    | (rename_i o1 o2; have := payloadLen_le o1; have := payloadLen_le o2; omega)
    | (rename_i o; have := payloadLen_le o; omega)

end Sys2Proof
end

