-- ==== Sys2Proof/Laws/Exec.lean ====
section
/-! SUPPORT. What each meaning can do, said once: every instruction answers a next state, which is its effect or the machine
fault; and a property that every elementary effect keeps is kept by every instruction. -/

namespace Sys2Proof.Machine

variable {s t u : State} {o d src dst val : Operand} {r : Reg} {v : Word} {ff : Byte}

/-! ## MOV -/

theorem execMov_reg (h : Readable src) : execMov (.reg r) src s = .next (s.setReg r (lastValue s src)) := by
  simp [execMov, eval_of_readable h, movWrite, lastValue_eq]

theorem execMov_const {a : Word} (h : Readable src) (ha : inBounds a.toInt 1) :
    execMov (.const a) src s = .next (s.setMem (s.mem.write a.toNat (trunc8 (lastValue s src)))) := by
  simp [execMov, eval_of_readable h, movWrite, lastValue_eq, memWrite1_ok ha, toNat_toInt_of_nonneg ha.1]

theorem execMov_const_error {a : Word} (h : Readable src) (ha : ¬ inBounds a.toInt 1) :
    execMov (.const a) src s = .next (s.raiseFault .outOfBounds) := by
  simp [execMov, eval_of_readable h, movWrite, memWrite1_error ha]

theorem execMov_unreadable (h : ¬ Readable src) : execMov dst src s = .next (s.raiseFault .outOfBounds) := by
  simp [execMov, eval_of_not_readable h]

theorem execMov_mem {a : Word} (h : Readable src) :
    execMov (.mem a) src s = .next (s.raiseFault .invalidArgumentType) := by
  simp [execMov, eval_of_readable h, movWrite]

/-! ## Arithmetic -/

theorem execArith_readable {f : Word → Word → Except FaultInfo Word} (h : Readable val) :
    execArith f r val s = finish s ((f (arithOld s r val) (lastValue s val)).map (s.setReg r)) := by
  simp only [execArith, eval_of_readable h, ok_bind, lastValue_eq]
  cases f (arithOld s r val) (valueOf s (lastEnd s) val) <;> rfl

theorem execArith_unreadable {f : Word → Word → Except FaultInfo Word} (h : ¬ Readable val) :
    execArith f r val s = .next (s.raiseFault .outOfBounds) := by
  simp [execArith, eval_of_not_readable h]

theorem execAdd_eq (h : Readable val) :
    execAdd r val s = .next (s.setReg r (wrap32 ((arithOld s r val).toInt + (lastValue s val).toInt))) := by
  simp [execAdd, execArith_readable h, addWords, Except.map]

theorem execSub_eq (h : Readable val) :
    execSub r val s = .next (s.setReg r (wrap32 ((arithOld s r val).toInt - (lastValue s val).toInt))) := by
  simp [execSub, execArith_readable h, subWords, Except.map]

theorem execMul_eq (h : Readable val) :
    execMul r val s = .next (s.setReg r (wrap32 ((arithOld s r val).toInt * (lastValue s val).toInt))) := by
  simp [execMul, execArith_readable h, mulWords, Except.map]

theorem execDiv_eq (h : Readable val) (hv : lastValue s val ≠ 0) :
    execDiv r val s = .next (s.setReg r (wrap32 ((arithOld s r val).toInt.tdiv (lastValue s val).toInt))) := by
  rw [execDiv, execArith_readable h, divWords, if_neg hv]; rfl

theorem execDiv_zero (h : Readable val) (hv : lastValue s val = 0) :
    execDiv r val s = .next (s.raiseFault .divideByZero) := by
  rw [execDiv, execArith_readable h, divWords, if_pos hv]; rfl

/-- All an arithmetic instruction can do: write its register, or fault. -/
theorem execArith_cases {f : Word → Word → Except FaultInfo Word} (h : execArith f r val s = .next t) :
    (∃ w, t = s.setReg r w) ∨ ∃ i, t = s.raiseFault i := by
  rcases finish_cases h with h | ⟨i, -, rfl⟩
  · obtain ⟨v, -, h⟩ := bind_eq_ok h
    obtain ⟨w, -, h⟩ := bind_eq_ok h
    cases h
    exact .inl ⟨w, rfl⟩
  · exact .inr ⟨i, rfl⟩

/-! ## Stack -/

theorem execPush_ok (h : CanPush s) :
    execPush r s = .next (s.setMem (pushedMem s.mem (stackBase s) (stackCount s).toNat (lastValue s (.reg r)))) := by
  simp [execPush, eval_of_readable (o := .reg r) trivial, push_ok h, lastValue_eq]

theorem execPush_error (h : ¬ CanPush s) : ∃ i, execPush r s = .next (s.raiseFault i) := by
  obtain ⟨i, hi⟩ := push_error (v := lastValue s (.reg r)) h
  refine ⟨i, ?_⟩
  rw [lastValue_eq] at hi
  simp [execPush, eval_of_readable (o := .reg r) trivial, hi]

theorem execPop_ok (h : CanPop s) :
    execPop r s = .next ((s.setMem (poppedMem s.mem (stackBase s) (stackCount s).toNat)).setReg r
      (s.mem.word (stackBase s + 4))) := by
  simp [execPop, pop_ok h]

theorem execPop_error (h : ¬ CanPop s) : ∃ i, execPop r s = .next (s.raiseFault i) := by
  obtain ⟨i, hi⟩ := pop_error h
  exact ⟨i, by simp [execPop, hi]⟩

theorem pushAll_cons_ok {rs : List Reg} (h : CanPush s) :
    pushAll (r :: rs) s =
      pushAll rs (s.setMem (pushedMem s.mem (stackBase s) (stackCount s).toNat (s.reg r))) := by
  simp [pushAll, push_ok h]

theorem pushAll_cons_error {rs : List Reg} (h : ¬ CanPush s) : ∃ i, pushAll (r :: rs) s = .next (s.raiseFault i) := by
  obtain ⟨i, hi⟩ := push_error (v := s.reg r) h
  exact ⟨i, by simp [pushAll, hi]⟩

theorem popAll_cons_ok {rs : List Reg} (h : CanPop s) :
    popAll (r :: rs) s =
      popAll rs ((s.setMem (poppedMem s.mem (stackBase s) (stackCount s).toNat)).setReg r
        (s.mem.word (stackBase s + 4))) := by
  simp [popAll, pop_ok h]

theorem popAll_cons_error {rs : List Reg} (h : ¬ CanPop s) : ∃ i, popAll (r :: rs) s = .next (s.raiseFault i) := by
  obtain ⟨i, hi⟩ := pop_error h
  exact ⟨i, by simp [popAll, hi]⟩

/-! ## Jumps -/

theorem execJmp_eq (h : Readable d) : execJmp d s = .next (s.setReg .ip (lastValue s d)) := by
  simp [execJmp, eval_of_readable h, lastValue_eq]

theorem execJmp_unreadable (h : ¬ Readable d) : execJmp d s = .next (s.raiseFault .outOfBounds) := by
  simp [execJmp, eval_of_not_readable h]

theorem condJump_eq {cond : Word → Bool} (h : Readable d) (h' : Readable o) :
    condJump cond d o s = .next (if cond (lastValue s o) then s.setReg .ip (firstValue s d o) else s) := by
  rw [condJump, eval_of_readable h, ok_bind, eval_of_readable h', ok_bind]
  cases hc : cond (valueOf s (lastEnd s) o) <;> simp [lastValue_eq, firstValue_eq, hc]

theorem condJump_unreadable {cond : Word → Bool} (h : ¬ (Readable d ∧ Readable o)) :
    condJump cond d o s = .next (s.raiseFault .outOfBounds) := by
  by_cases hd : Readable d
  · have ho : ¬ Readable o := fun ho => h ⟨hd, ho⟩
    simp [condJump, eval_of_readable hd, eval_of_not_readable ho]
  · simp [condJump, eval_of_not_readable hd]

/-! ## Every instruction -/

/-- All an instruction other than APUSH and APOP can do. -/
theorem exec_cases {i : Instr} (hi : i ≠ .apush) (hi' : i ≠ .apop) (h : exec i s = .next t) :
    t = s ∨ (i = .hlt ∧ t = s.halt) ∨ (∃ r ∈ writtenRegs i, ∃ w, t = s.setReg r w) ∨
    (∃ a b, storedRange s i = (a, a + 1) ∧ a < Config.memSize ∧ t = s.setMem (s.mem.write a b)) ∨
    (∃ w, CanPush s ∧ storedRange s i = (stackBase s, stackBase s + 8 + 4 * (stackCount s).toNat) ∧
      t = s.setMem (pushedMem s.mem (stackBase s) (stackCount s).toNat w)) ∨
    (∃ r ∈ writtenRegs i, CanPop s ∧
      storedRange s i = (stackBase s, stackBase s + 4 + 4 * ((stackCount s).toNat - 1)) ∧
      t = (s.setMem (poppedMem s.mem (stackBase s) (stackCount s).toNat)).setReg r (s.mem.word (stackBase s + 4))) ∨
    ∃ f, t = s.raiseFault f := by
  have fault : ∀ {f t}, (Host.Outcome.next (s.raiseFault f) : Host.Outcome State Fault Refusal) = .next t →
      ∃ f, t = s.raiseFault f := fun {f t} h => ⟨f, by cases h; rfl⟩
  have arith : ∀ {f r val t}, execArith f r val s = .next t →
      (∃ w, t = s.setReg r w) ∨ ∃ f, t = s.raiseFault f := execArith_cases
  have cond : ∀ {c d o t}, condJump c d o s = .next t →
      t = s ∨ (∃ w, t = s.setReg .ip w) ∨ ∃ f, t = s.raiseFault f := by
    intro c d o t h
    by_cases hc : Readable d ∧ Readable o
    · rw [condJump_eq hc.1 hc.2] at h
      cases h
      split
      · exact .inr (.inl ⟨_, rfl⟩)
      · exact .inl rfl
    · rw [condJump_unreadable hc] at h
      exact .inr (.inr (fault h))
  cases i with
  | nop | hwid | int => cases h; exact .inl rfl
  | hlt => cases h; exact .inr (.inl ⟨rfl, rfl⟩)
  | add ff r val | sub ff r val | mul ff r val | div ff r val =>
    rcases arith h with h | h
    · exact .inr (.inr (.inl ⟨r, by simp [writtenRegs], h⟩))
    · simp [h]
  | jez ff d o | jnz ff d o | jlz ff d o | jgz ff d o =>
    rcases cond h with h | h | h
    · exact .inl h
    · exact .inr (.inr (.inl ⟨.ip, by simp [writtenRegs], h⟩))
    · simp [h]
  | apush => exact absurd rfl hi
  | apop => exact absurd rfl hi'
  | push ff r =>
    change execPush r s = _ at h
    by_cases hc : CanPush s
    · rw [execPush_ok hc] at h
      cases h
      exact .inr (.inr (.inr (.inr (.inl ⟨_, hc, rfl, rfl⟩))))
    · obtain ⟨f, hf⟩ := execPush_error (r := r) hc
      rw [hf] at h
      simp [fault h]
  | pop ff r =>
    change execPop r s = _ at h
    by_cases hc : CanPop s
    · rw [execPop_ok hc] at h
      cases h
      exact .inr (.inr (.inr (.inr (.inr (.inl ⟨r, by simp [writtenRegs], hc, rfl, rfl⟩)))))
    · obtain ⟨f, hf⟩ := execPop_error (r := r) hc
      rw [hf] at h
      simp [fault h]
  | jmp ff d =>
    change execJmp d s = _ at h
    by_cases hd : Readable d
    · rw [execJmp_eq hd] at h
      cases h
      exact .inr (.inr (.inl ⟨.ip, by simp [writtenRegs], _, rfl⟩))
    · rw [execJmp_unreadable hd] at h
      simp [fault h]
  | mov ff dst src =>
    change execMov dst src s = _ at h
    by_cases hr : Readable src
    · cases dst with
      | reg r =>
        rw [execMov_reg hr] at h
        cases h
        exact .inr (.inr (.inl ⟨r, by simp [writtenRegs], _, rfl⟩))
      | mem a =>
        rw [execMov_mem hr] at h
        simp [fault h]
      | const a =>
        by_cases ha : inBounds a.toInt 1
        · rw [execMov_const hr ha] at h
          cases h
          refine .inr (.inr (.inr (.inl ⟨a.toNat, _, rfl, ?_, rfl⟩)))
          have := toNat_toInt_of_nonneg ha.1
          simp only [inBounds] at ha; omega
        · rw [execMov_const_error hr ha] at h
          simp [fault h]
    · rw [execMov_unreadable hr] at h
      simp [fault h]

/-- A relation to the start state that each push and a fault keep is kept by a run of pushes. -/
theorem pushAll_preserves {P : State → Prop} {rs : List Reg}
    (hpush : ∀ s v, P s → CanPush s → P (s.setMem (pushedMem s.mem (stackBase s) (stackCount s).toNat v)))
    (hfault : ∀ s f, P s → P (s.raiseFault f)) (hs : P s) (h : pushAll rs s = .next t) : P t := by
  induction rs generalizing s with
  | nil => cases h; exact hs
  | cons r rs ih =>
    by_cases hc : CanPush s
    · rw [pushAll_cons_ok hc] at h
      exact ih (hpush _ _ hs hc) h
    · obtain ⟨f, hf⟩ := pushAll_cons_error (r := r) (rs := rs) hc
      rw [hf] at h; cases h; exact hfault _ _ hs

/-- The same for a run of pops into the given registers. -/
theorem popAll_preserves {P : State → Prop} {rs : List Reg}
    (hpop : ∀ s r, r ∈ rs → P s → CanPop s → P ((s.setMem (poppedMem s.mem (stackBase s) (stackCount s).toNat)).setReg r
      (s.mem.word (stackBase s + 4))))
    (hfault : ∀ s f, P s → P (s.raiseFault f)) (hs : P s) (h : popAll rs s = .next t) : P t := by
  induction rs generalizing s with
  | nil => cases h; exact hs
  | cons r rs ih =>
    by_cases hc : CanPop s
    · rw [popAll_cons_ok hc] at h
      exact ih (fun s q hq => hpop s q (by simp [hq])) (hpop _ _ (by simp) hs hc) h
    · obtain ⟨f, hf⟩ := popAll_cons_error (r := r) (rs := rs) hc
      rw [hf] at h; cases h; exact hfault _ _ hs

/-- A property that every elementary effect keeps is kept by every instruction. -/
theorem exec_preserves {P : State → Prop} {i : Instr}
    (hreg : ∀ s r v, P s → P (s.setReg r v))
    (hbyte : ∀ s a b, P s → a < Config.memSize → P (s.setMem (s.mem.write a b)))
    (hpush : ∀ s v, P s → CanPush s → P (s.setMem (pushedMem s.mem (stackBase s) (stackCount s).toNat v)))
    (hpop : ∀ s, P s → CanPop s → P (s.setMem (poppedMem s.mem (stackBase s) (stackCount s).toNat)))
    (hhalt : ∀ s, P s → P s.halt)
    (hfault : ∀ s f, P s → P (s.raiseFault f))
    (hs : P s) (h : exec i s = .next t) : P t := by
  by_cases hi : i = .apush
  · subst hi
    exact pushAll_preserves hpush hfault hs h
  by_cases hi' : i = .apop
  · subst hi'
    exact popAll_preserves (fun s r _ h hc => hreg _ _ _ (hpop s h hc)) hfault hs h
  rcases exec_cases hi hi' h with rfl | ⟨-, rfl⟩ | ⟨r, -, w, rfl⟩ | ⟨a, b, -, ha, rfl⟩ | ⟨w, hc, -, rfl⟩ |
    ⟨r, -, hc, -, rfl⟩ | ⟨f, rfl⟩
  · exact hs
  · exact hhalt _ hs
  · exact hreg _ _ _ hs
  · exact hbyte _ _ _ hs ha
  · exact hpush _ _ hs hc
  · exact hreg _ _ _ (hpop _ hs hc)
  · exact hfault _ _ hs

/-- Every instruction answers a next state from every state. -/
theorem exec_next (i : Instr) (s : State) : ∃ t, exec i s = .next t := by
  have hf : ∀ s r, ∃ t, finish s r = .next t := by intro s r; cases r <;> exact ⟨_, rfl⟩
  have hp : ∀ rs s, ∃ t, pushAll rs s = .next t := by
    intro rs
    induction rs with
    | nil => intro s; exact ⟨_, rfl⟩
    | cons r rs ih =>
      intro s; unfold pushAll; split
      · exact ih _
      · exact ⟨_, rfl⟩
  have hq : ∀ rs s, ∃ t, popAll rs s = .next t := by
    intro rs
    induction rs with
    | nil => intro s; exact ⟨_, rfl⟩
    | cons r rs ih =>
      intro s; unfold popAll; split
      · exact ih _
      · exact ⟨_, rfl⟩
  cases i
  all_goals first | exact hf _ _ | exact ⟨_, rfl⟩ | exact hp _ _ | exact hq _ _

/-- Writing one register is the frame of an instruction that stores nothing. -/
theorem setReg_regsOnly {v : Word} : RegsOnly [r] s (s.setReg r v) :=
  ⟨fun q hq => State.reg_setReg_ne _ _ _ _ (by simpa using hq), ⟨by simp, by simp, by simp⟩, by simp⟩

end Sys2Proof.Machine
end

