-- ==== Sys2Proof/Laws/PerInstr.lean ====
section
/-! SUPPORT. Statements made for each instruction as syntax. RoundTrip: a well-formed instruction is decoded back from its
bytes, whatever follows them, under every numbering. -/

namespace Sys2Proof.Laws

/-- Decoding the encoding gives the instruction back, and leaves the bytes after it. -/
def RoundTrip.Statement (i : Instr) : Prop :=
  ∀ (N : Numbering) (rest : List Byte), i.wellFormedWith N = true → decodeWith N (encodeWith N i ++ rest) = .ok (i, rest)

theorem RoundTrip.nop (op : Byte) : RoundTrip.Statement (.nop op) := by
  intro N rest h
  have hm : (N.mnemonicOf op).getD .nop = .nop := by
    cases hn : N.mnemonicOf op with
    | none => rfl
    | some m =>
      have h' := List.all_eq_true.1 h m (Mnemonic.mem_all m)
      rw [Numbering.mnemonicOf_eq_some] at hn
      simpa [hn] using h'
  simp [decodeWith, encodeWith, hm]

theorem RoundTrip.mov (ff : Byte) (dst src : Operand) : RoundTrip.Statement (.mov ff dst src) := by
  intro N rest h
  simp only [Instr.wellFormedWith, Bool.and_eq_true, beq_iff_eq, bne_iff_ne] at h
  obtain ⟨⟨h0, h1⟩, hd⟩ := h
  cases dst with
  | mem a => exact absurd rfl hd
  | const v =>
    simp [decodeWith, encodeWith, decodeMov, show tagAt ff 0 = .constant from h0, readTyped_bytes h0, readTyped_bytes h1]
  | reg r =>
    simp [decodeWith, encodeWith, decodeMov, show tagAt ff 0 = .register from h0, readTyped_bytes h0, readTyped_bytes h1]

theorem decodeArith_encoded {N : Numbering} {mk : Byte → Reg → Operand → Instr} {ff : Byte} {r : Reg} {o : Operand}
    {rest : List Byte} (h : tagAt ff 1 = o.tag) :
    decodeArith N mk (ff :: N.rid r :: (o.bytes N ++ rest)) = .ok (mk ff r o, rest) := by
  simp [decodeArith, readTyped_bytes h]

theorem decodeCond_encoded {N : Numbering} {mk : Byte → Operand → Operand → Instr} {ff : Byte} {d t : Operand}
    {rest : List Byte} (h : (tagAt ff 0 == d.tag && tagAt ff 1 == t.tag) = true) :
    decodeCond N mk (ff :: (d.bytes N ++ (t.bytes N ++ rest))) = .ok (mk ff d t, rest) := by
  simp only [Bool.and_eq_true, beq_iff_eq] at h
  simp [decodeCond, readTyped_bytes h.1, readTyped_bytes h.2]

theorem RoundTrip.add (ff : Byte) (dst : Reg) (val : Operand) : RoundTrip.Statement (.add ff dst val) := by
  intro N rest h
  simp [decodeWith, encodeWith, decodeArith_encoded (show tagAt ff 1 = val.tag by simpa [Instr.wellFormedWith] using h)]

theorem RoundTrip.sub (ff : Byte) (dst : Reg) (val : Operand) : RoundTrip.Statement (.sub ff dst val) := by
  intro N rest h
  simp [decodeWith, encodeWith, decodeArith_encoded (show tagAt ff 1 = val.tag by simpa [Instr.wellFormedWith] using h)]

theorem RoundTrip.mul (ff : Byte) (dst : Reg) (val : Operand) : RoundTrip.Statement (.mul ff dst val) := by
  intro N rest h
  simp [decodeWith, encodeWith, decodeArith_encoded (show tagAt ff 1 = val.tag by simpa [Instr.wellFormedWith] using h)]

theorem RoundTrip.div (ff : Byte) (dst : Reg) (val : Operand) : RoundTrip.Statement (.div ff dst val) := by
  intro N rest h
  simp [decodeWith, encodeWith, decodeArith_encoded (show tagAt ff 1 = val.tag by simpa [Instr.wellFormedWith] using h)]

theorem RoundTrip.push (ff : Byte) (reg : Reg) : RoundTrip.Statement (.push ff reg) := by
  intro N rest _
  simp [decodeWith, encodeWith, decodeStack]

theorem RoundTrip.pop (ff : Byte) (reg : Reg) : RoundTrip.Statement (.pop ff reg) := by
  intro N rest _
  simp [decodeWith, encodeWith, decodeStack]

theorem RoundTrip.apush : RoundTrip.Statement .apush := by
  intro N rest _
  simp [decodeWith, encodeWith]

theorem RoundTrip.apop : RoundTrip.Statement .apop := by
  intro N rest _
  simp [decodeWith, encodeWith]

theorem RoundTrip.jmp (ff : Byte) (dest : Operand) : RoundTrip.Statement (.jmp ff dest) := by
  intro N rest h
  have h : tagAt ff 0 = dest.tag := by simpa [Instr.wellFormedWith] using h
  simp [decodeWith, encodeWith, decodeJmp, readTyped_bytes h]

theorem RoundTrip.jez (ff : Byte) (dest test : Operand) : RoundTrip.Statement (.jez ff dest test) := by
  intro N rest h
  simp [decodeWith, encodeWith, decodeCond_encoded h]

theorem RoundTrip.jnz (ff : Byte) (dest test : Operand) : RoundTrip.Statement (.jnz ff dest test) := by
  intro N rest h
  simp [decodeWith, encodeWith, decodeCond_encoded h]

theorem RoundTrip.jlz (ff : Byte) (dest test : Operand) : RoundTrip.Statement (.jlz ff dest test) := by
  intro N rest h
  simp [decodeWith, encodeWith, decodeCond_encoded h]

theorem RoundTrip.jgz (ff : Byte) (dest test : Operand) : RoundTrip.Statement (.jgz ff dest test) := by
  intro N rest h
  simp [decodeWith, encodeWith, decodeCond_encoded h]

theorem RoundTrip.hwid : RoundTrip.Statement .hwid := by
  intro N rest _
  simp [decodeWith, encodeWith]

theorem RoundTrip.hlt : RoundTrip.Statement .hlt := by
  intro N rest _
  simp [decodeWith, encodeWith]

theorem RoundTrip.int (ff : Byte) : RoundTrip.Statement (.int ff) := by
  intro N rest _
  simp [decodeWith, encodeWith, decodeInt]

end Sys2Proof.Laws
end

