-- ==== Sys2Proof/Laws/Step.lean ====
section
/-! SUPPORT. What the step does around exec: the wrap of `ip`, the fetch, the advance; and the bytes of a loaded image. -/

namespace Sys2Proof.Machine

variable {s t : State} {m : Memory} {a : Int} {i : Instr} {f : FaultInfo} {n : Nat}

/-! ## The wrap -/

theorem wrapIp_of_ge (h : 0x10000 ≤ s.ip.toInt) : wrapIp s = s.setReg .ip 0 := if_pos h
theorem wrapIp_of_lt (h : s.ip.toInt < 0x10000) : wrapIp s = s := by
  unfold wrapIp
  rw [if_neg (by simp only [Config.memSize]; omega)]

@[simp] theorem wrapIp_mem : (wrapIp s).mem = s.mem := by unfold wrapIp; split <;> simp
@[simp] theorem wrapIp_halted : (wrapIp s).halted = s.halted := by unfold wrapIp; split <;> simp
@[simp] theorem wrapIp_faulted : (wrapIp s).faulted = s.faulted := by unfold wrapIp; split <;> simp
@[simp] theorem wrapIp_draws : (wrapIp s).draws = s.draws := by unfold wrapIp; split <;> simp
theorem wrapIp_reg {r : Reg} (h : r ≠ .ip) : (wrapIp s).reg r = s.reg r := by
  unfold wrapIp; split
  · exact State.reg_setReg_ne _ _ _ _ h
  · rfl

theorem wrapIp_ip_lt : (wrapIp s).ip.toInt < 0x10000 := by
  unfold wrapIp
  split
  · simp
  · next h => simp only [Config.memSize] at h; omega

/-- Wrapping twice is wrapping once. -/
theorem wrapIp_wrapIp : wrapIp (wrapIp s) = wrapIp s := wrapIp_of_lt wrapIp_ip_lt

@[simp] theorem advance_mem : (advance n s).mem = s.mem := State.setReg_mem _ _ _
@[simp] theorem advance_halted : (advance n s).halted = s.halted := State.setReg_halted _ _ _
@[simp] theorem advance_faulted : (advance n s).faulted = s.faulted := State.setReg_faulted _ _ _

theorem advance_ip : (advance n s).ip = s.ip + BitVec.ofNat 32 n := by
  simp only [advance, State.setReg_ip_ip, wrap32]
  rw [BitVec.ofInt_add, BitVec.ofInt_toInt]; rfl

/-! ## The decoder block -/

theorem decodeBlock_ok (h : decodeAt m a = .ok i) : decodeBlock m a = .ok (Decoded.of numbering a i) := by
  simp only [decodeBlock, h, Except.map]

theorem decodeBlock_error (h : decodeAt m a = .error f) : decodeBlock m a = .error f := by
  simp only [decodeBlock, h, Except.map]

/-- What the block answers is the decoded instruction, described. -/
theorem decodeBlock_eq_ok {d : Decoded} :
    decodeBlock m a = .ok d ↔ ∃ i, decodeAt m a = .ok i ∧ d = Decoded.of numbering a i := by
  cases h : decodeAt m a with
  | ok i => simp [decodeBlock_ok h, eq_comm]
  | error f => simp [decodeBlock_error h]

/-! ## The step -/

theorem step_halted (h : s.halted = true) : step s = .fault .runIsOver := by simp [step, h]

theorem step_ok (h : s.halted = false) (hd : decodeAt s.mem (wrapIp s).ip.toInt = .ok i) :
    step s = exec i (advance i.len (wrapIp s)) := by
  simp [step, h, decodeBlock_ok hd, Decoded.of]

theorem step_error (h : s.halted = false) (hd : decodeAt s.mem (wrapIp s).ip.toInt = .error f) :
    step s = .next ((wrapIp s).raiseFault f) := by
  simp [step, h, decodeBlock_error hd]

/-- All a step can do: run the decoded instruction, or take the fault of the decode. -/
theorem step_cases (h : step s = .next t) :
    s.halted = false ∧
      ((∃ i, decodeAt s.mem (wrapIp s).ip.toInt = .ok i ∧ exec i (advance i.len (wrapIp s)) = .next t) ∨
        ∃ f, decodeAt s.mem (wrapIp s).ip.toInt = .error f ∧ t = (wrapIp s).raiseFault f) := by
  cases hh : s.halted with
  | true => rw [step_halted hh] at h; cases h
  | false =>
    refine ⟨rfl, ?_⟩
    cases hd : decodeAt s.mem (wrapIp s).ip.toInt with
    | ok i => rw [step_ok hh hd] at h; exact .inl ⟨i, rfl, h⟩
    | error f => rw [step_error hh hd] at h; cases h; exact .inr ⟨f, rfl, rfl⟩

/-! ## The fetch -/

theorem decodeAt_out (h : ¬ inBounds a 1) : decodeAt m a = .error .outOfBounds := if_neg h

theorem decodeAt_in (h : inBounds a 1) : decodeAt m a = (decode (fetchWindow m a.toNat)).map (·.1) := if_pos h

@[simp] theorem length_fetchWindow {x : Nat} :
    (fetchWindow m x).length = min maxInstrBytes (Config.memSize - x) := Memory.length_readBytes

/-- A window begins with the bytes that memory holds. -/
theorem fetchWindow_eq_append {x : Nat} {bs : List Byte} (hlen : bs.length ≤ maxInstrBytes)
    (hfit : x + bs.length ≤ Config.memSize) (h : ∀ k, (hk : k < bs.length) → m.read (x + k) = bs[k]) :
    ∃ rest, fetchWindow m x = bs ++ rest := by
  obtain ⟨n, hn⟩ := Nat.exists_eq_add_of_le (show bs.length ≤ min maxInstrBytes (Config.memSize - x) by omega)
  refine ⟨m.readBytes (x + bs.length) n, ?_⟩
  unfold fetchWindow
  rw [hn, Memory.readBytes_add]
  congr 1
  apply List.ext_getElem (by simp)
  intro k h1 h2
  have := Memory.getElem?_readBytes (m := m) (a := x) (n := bs.length) (k := k) h2
  rw [List.getElem?_eq_getElem h1, Option.some.injEq] at this
  rw [this, h k h2]

/-- Bytes of a well-formed instruction that end inside memory are decoded as that instruction where they stand. -/
theorem decodeAt_of_roundTrip (hi : Laws.RoundTrip.Statement i) (hw : i.wellFormed = true) (ha : 0 ≤ a)
    (hf : a + i.len ≤ 0x10000) (h : ∀ k, (hk : k < (encode i).length) → m.read (a.toNat + k) = (encode i)[k]) :
    decodeAt m a = .ok i := by
  have hl : (encode i).length = i.len := length_encodeWith i
  have := len_pos i
  rw [decodeAt_in (by simp only [inBounds, Config.memSize]; omega)]
  obtain ⟨rest, hr⟩ := fetchWindow_eq_append (m := m) (x := a.toNat) (bs := encode i)
    (by rw [hl]; exact len_le i) (by rw [hl]; simp only [Config.memSize]; omega) h
  rw [hr, show decode (encode i ++ rest) = .ok (i, rest) from hi numbering rest hw]; rfl

/-! ## Loading -/

theorem read_load {image : List Byte} (h : load image = some s) (x : Nat) : s.mem.read x = image.getD x 0 := by
  unfold load at h
  split at h
  · cases h
    rw [State.setMem_mem, Memory.read_writeBytes]
    split
    · simp
    · next hx => simp at hx; simp [hx]
  · cases h

end Sys2Proof.Machine
end

