-- ==== Sys2Proof/Tests/Slice0.lean ====
section
/-! SUPPORT. The model's own tests. Expected results come from spec/95_test_vectors.md, named in each docstring, or from the
rule named there. Instruction words are written over OPC and RID, which are open: a test holds for every choice of
them, or uses `sample`, one numbering among all. Then the witnesses: for every obligation with hypotheses, a state and
operands that meet them, at the edges of their ranges. -/

namespace Sys2Proof.Tests

open Sys2Proof Sys2Proof.Machine

/-- One injective numbering, for tests that must be evaluated. -/
def sample : Numbering where
  opc m := BitVec.ofNat 8 m.ctorIdx
  rid r := BitVec.ofNat 8 r.ctorIdx
  opc_injective := Mnemonic.toByte_injective
  rid_injective := Reg.toByte_injective

/-- The next state of an instruction run on a state. -/
def run (i : Instr) (s : State) : Option State :=
  match exec i s with
  | .next t => some t
  | .fault _ => none
  | .refused _ => none

/-- A running machine with the general registers and `ip` given, `sp` as at reset, memory zero. -/
def start (eax ebx ip : Word) : State := { State.reset with eax := eax, ebx := ebx, ip := ip }

/-- The same machine with one byte of memory. -/
def withByte (s : State) (a : Nat) (b : Byte) : State := s.setMem (s.mem.write a b)

/-- The same machine with a stack at `sp`: the count word, then entries, newest first. -/
def withStack (s : State) (sp count : Word) (entries : List Word) : State :=
  { s with sp := sp, mem := s.mem.writeBytes sp.toNat ((count :: entries).flatMap be32Bytes) }

/-- What a run of an instruction leaves, seen through a projection. -/
def result {α : Type} (i : Instr) (s : State) (f : State → α) : Option α := (run i s).map f

/-- Did it fault, with EAX and memory as given? -/
def faults (i : Instr) (s : State) : Bool :=
  (result i s fun t => (t.halted, t.faulted, t.eax, t.ebx, t.ecx, t.edx, t.sp, t.mem))
    == some (true, true, s.eax, s.ebx, s.ecx, s.edx, s.sp, s.mem)

/-! ## Ill-formed terms are refused -/

/-- R64: MOV's code is not a NOP byte. -/
theorem test_wf_nop_with_movs_code : (Instr.nop (numbering.opc .mov)).wellFormed = false := by
  simp [Instr.wellFormed, Instr.wellFormedWith, Mnemonic.all]

theorem test_wf_mov_field0 : (Instr.mov 0x50 (.reg .eax) (.const 1)).wellFormed = false := by decide
theorem test_wf_mov_field1 : (Instr.mov 0x90 (.reg .eax) (.reg .ebx)).wellFormed = false := by decide
theorem test_wf_mov_to_memoryValue : (Instr.mov 0xE0 (.mem 0x100) (.reg .eax)).wellFormed = false := by decide
theorem test_wf_add_field1 : (Instr.add 0x80 .eax (.const 1)).wellFormed = false := by decide
theorem test_wf_sub_field1 : (Instr.sub 0x10 .eax (.reg .eax)).wellFormed = false := by decide
theorem test_wf_mul_field1 : (Instr.mul 0x10 .eax (.mem 1)).wellFormed = false := by decide
theorem test_wf_div_field1 : (Instr.div 0x30 .eax (.const 1)).wellFormed = false := by decide
theorem test_wf_jmp_field0 : (Instr.jmp 0x80 (.const 0)).wellFormed = false := by decide
theorem test_wf_jez_field0 : (Instr.jez 0x60 (.reg .eax) (.reg .eax)).wellFormed = false := by decide
theorem test_wf_jnz_field1 : (Instr.jnz 0x50 (.const 0) (.reg .eax)).wellFormed = false := by decide
theorem test_wf_jlz_field1 : (Instr.jlz 0x40 (.const 0) (.reg .eax)).wellFormed = false := by decide
theorem test_wf_jgz_field0 : (Instr.jgz 0x20 (.const 0) (.reg .eax)).wellFormed = false := by decide
/-- The good neighbours are accepted, with unconsulted bits set (R66). -/
theorem test_wf_accepts : (Instr.mov 0x9F (.reg .eax) (.const 5)).wellFormed = true ∧
    (Instr.add 0x50 .ebx (.const 1)).wellFormed = true := by decide

/-! ## Every constructor's decoding, by words of 95_test_vectors.md §2.1 -/

theorem test_decode_mov : -- DEC3 and DEC4
    decodeWith sample [1, 0x50, 0x00, 0x00, 0x02, 0x00, 0x00, 0x00, 0x00, 0x2A]
      = .ok (.mov 0x50 (.const 0x200) (.const 0x2A), []) ∧
    decodeWith sample [1, 0x70, 0x00, 0x00, 0x02, 0x00, 0x00, 0x00, 0x01, 0x00, 0xEE]
      = .ok (.mov 0x70 (.const 0x200) (.mem 0x100), [0xEE]) := by constructor <;> rfl

theorem test_decode_add : -- DEC10: field 0 = Constant is not consulted
    decodeWith sample [2, 0x50, 1, 0x00, 0x00, 0x00, 0x01] = .ok (.add 0x50 .ebx (.const 1), []) := rfl
theorem test_decode_sub : decodeWith sample [3, 0xA0, 2, 2] = .ok (.sub 0xA0 .ecx (.reg .ecx), []) := rfl -- DEC12
theorem test_decode_mul : -- P1 at 0x12
    decodeWith sample [4, 0x90, 1, 0xFF, 0xFF, 0xFF, 0xFD] = .ok (.mul 0x90 .ebx (.const (-3)), []) := rfl
theorem test_decode_div : -- DEC13
    decodeWith sample [5, 0xB0, 0, 0x00, 0x00, 0x03, 0x00] = .ok (.div 0xB0 .eax (.mem 0x300), []) := rfl
theorem test_decode_push : decodeWith sample [6, 0x00, 2] = .ok (.push 0x00 .ecx, []) := rfl -- DEC14
theorem test_decode_pop : decodeWith sample [7, 0x40, 3] = .ok (.pop 0x40 .edx, []) := rfl -- DEC15
theorem test_decode_jmp : -- DEC17 and DEC18
    decodeWith sample [10, 0x80, 0] = .ok (.jmp 0x80 (.reg .eax), []) ∧
    decodeWith sample [10, 0xC0, 0x00, 0x00, 0x03, 0x00] = .ok (.jmp 0xC0 (.mem 0x300), []) := by constructor <;> rfl
theorem test_decode_jez : -- DEC21
    decodeWith sample [11, 0x50, 0x00, 0x00, 0x00, 0x20, 0x00, 0x00, 0x00, 0x00]
      = .ok (.jez 0x50 (.const 0x20) (.const 0), []) := rfl
theorem test_decode_jnz : -- P2 at 0x19
    decodeWith sample [12, 0x60, 0x00, 0x00, 0x00, 0x0E, 2] = .ok (.jnz 0x60 (.const 0x0E) (.reg .ecx), []) := rfl
theorem test_decode_jlz : decodeWith sample [13, 0xA0, 0, 1] = .ok (.jlz 0xA0 (.reg .eax) (.reg .ebx), []) := rfl -- DEC22
theorem test_decode_jgz : -- CT9, and IP7's register test of IP
    decodeWith sample [14, 0x60, 0x00, 0x00, 0x00, 0x20, 5] = .ok (.jgz 0x60 (.const 0x20) (.reg .ip), []) := rfl
theorem test_decode_int : -- DEC25: the payload stays
    decodeWith sample [17, 0x40, 0x00, 0x00, 0x00, 0x05] = .ok (.int 0x40, [0x00, 0x00, 0x00, 0x05]) := rfl
theorem test_decode_no_flag_byte : -- DEC27, DEC26 (byte 18 is no code of `sample`)
    decodeWith sample [0, 1] = .ok (.nop 0, [1]) ∧ decodeWith sample [8, 1] = .ok (.apush, [1]) ∧
    decodeWith sample [9, 1] = .ok (.apop, [1]) ∧ decodeWith sample [15, 1] = .ok (.hwid, [1]) ∧
    decodeWith sample [16, 1] = .ok (.hlt, [1]) ∧ decodeWith sample [18, 1] = .ok (.nop 18, [1]) := by
  refine ⟨?_, ?_, ?_, ?_, ?_, ?_⟩ <;> rfl
theorem test_decode_faults : -- DEC6, DEC7, DEC11, DEC23, DEC29, DEC30
    decodeWith sample [1, 0xC0] = .error .invalidArgumentType ∧
    decodeWith sample [1, 0x80, 0] = .error .invalidOperandType ∧
    decodeWith sample [2, 0x80, 1] = .error .invalidOperandType ∧
    decodeWith sample [14, 0x40, 0x00, 0x00, 0x00, 0x20] = .error .invalidOperandType ∧
    decodeWith sample [1, 0xA0, 0, 6] = .error .invalidRegister ∧
    decodeWith sample [1, 0x90, 0, 0x00] = .error .outOfBounds := by
  refine ⟨?_, ?_, ?_, ?_, ?_, ?_⟩ <;> rfl

/-- R110's first example and last but one, as the decoder block reports them at `a = 0x40`. -/
theorem test_decoded_reports_ends :
    Decoded.of sample 0x40 (.mov 0x90 (.reg .eax) (.const 5)) =
      ⟨.mov, 1, some 0x90, [⟨.reg .eax, 0x43⟩, ⟨.const 5, 0x47⟩], 7, .mov 0x90 (.reg .eax) (.const 5)⟩ ∧
    Decoded.of sample 0x40 (.int 0x40) = ⟨.int, 17, some 0x40, [], 2, .int 0x40⟩ := by decide

/-- DEC1 for every numbering. -/
theorem test_decode_over_open_numbering :
    decode [numbering.opc .mov, 0x90, numbering.rid .eax, 0x00, 0x00, 0x00, 0x05]
      = .ok (.mov 0x90 (.reg .eax) (.const 5), []) :=
  Laws.RoundTrip.mov 0x90 (.reg .eax) (.const 5) numbering [] (by decide)

/-! ## Instructions, by vectors of 95_test_vectors.md §2.2 to §2.6 -/

theorem test_nop : run (.nop 0) (start 3 4 6) = some (start 3 4 6) := rfl -- MV1
theorem test_hwid : run .hwid (start 3 4 10) = some (start 3 4 10) := rfl -- SY2
theorem test_int : run (.int 0x40) (start 3 4 0x12) = some (start 3 4 0x12) := rfl -- SY3
theorem test_hlt : -- W6, SY1
    result .hlt (start 0 0 1) (fun t => (t.halted, t.faulted, t.ip, t.sp)) = some (true, false, 1, 0xF000) := by decide
theorem test_mov_stores_low_byte : -- MV4
    result (.mov 0x60 (.const 0x100) (.reg .eax)) (start 0x12345678 0 7)
      (fun t => (t.mem.read 0xFF, t.mem.read 0x100, t.mem.read 0x101)) = some (0, 0x78, 0) := by decide
theorem test_mov_loads_signed_byte : -- MV8, MV12
    result (.mov 0xB0 (.reg .eax) (.mem 0x100)) (withByte (start 0 0 7) 0x100 0x80) State.eax = some (-128) ∧
    faults (.mov 0xB0 (.reg .eax) (.mem (-1))) (start 5 0 7) = true := by decide
theorem test_add : -- AR2, AR23
    result (.add 0x90 .eax (.const 1)) (start 0x7FFFFFFF 0 7) State.eax = some 0x80000000 ∧
    result (.add 0xB0 .eax (.mem 0x100)) (withByte (start 100 0 7) 0x100 0xF0) State.eax = some 84 := by decide
theorem test_add_ip : -- IP6
    result (.add 0x90 .ip (.const 0x10)) (start 0 0 0x47) State.ip = some
      (match Config.arithDstRead with | .afterDstByte => 0x53 | .afterInstruction => 0x57) := by
  have h : arithDstRead = Config.arithDstRead := rfl
  unfold result run exec execAdd execArith arithOld
  rw [h]
  cases Config.arithDstRead <;> decide
theorem test_sub : -- AR5, AR6
    result (.sub 0x90 .eax (.const 1)) (start 0x80000000 0 7) State.eax = some 0x7FFFFFFF ∧
    result (.sub 0x90 .eax (.const 7)) (start 5 0 7) State.eax = some 0xFFFFFFFE := by decide
theorem test_mul : -- AR9, AR10
    result (.mul 0x90 .eax (.const (-1))) (start 0x80000000 0 7) State.eax = some 0x80000000 ∧
    result (.mul 0x90 .eax (.const 15)) (start (-3) 0 7) State.eax = some 0xFFFFFFD3 := by decide
theorem test_div : -- AR13, AR14, AR18
    result (.div 0x90 .eax (.const 2)) (start (-7) 0 7) State.eax = some (-3) ∧
    result (.div 0x90 .eax (.const (-2))) (start 7 0 7) State.eax = some (-3) ∧
    result (.div 0x90 .eax (.const (-1))) (start 0x80000000 0 7) State.eax = some 0x80000000 := by decide
theorem test_div_by_zero : faults (.div 0x90 .eax (.const 0)) (start 15 0 7) = true := by decide -- AR19
theorem test_push : -- ST1, and IP2
    result (.push 0x80 .eax) (start 7 0 3) (fun t => (t.mem.word 0xF000, t.mem.word 0xF004, t.sp)) = some (1, 7, 0xF000) ∧
    result (.push 0x80 .ip) (start 0 0 0x43) (fun t => t.mem.word 0xF004) = some 0x43 := by decide
theorem test_push_full : faults (.push 0x80 .eax) (withStack (start 1 2 3) 0xF000 1023 []) = true := by decide -- ST4
theorem test_pop : -- ST17's last pop: the vacated slot keeps its bytes (R148)
    result (.pop 0x80 .ecx) (withStack (start 7 0 3) 0xF000 2 [-2, 7])
      (fun t => (t.ecx, t.mem.word 0xF000, t.mem.word 0xF004, t.mem.word 0xF008)) = some (-2, 1, 7, 7) := by decide
theorem test_pop_sp : -- ST15: the count is written at the old `sp`
    result (.pop 0x80 .sp) (withStack (start 0 0 3) 0xF000 1 [0x1000]) (fun t => (t.sp, t.mem.word 0xF000))
      = some (0x1000, 0) := by decide
theorem test_apush : -- ST11
    result .apush { start 1 2 1 with ecx := 3, edx := 4 } (fun t => t.mem.readBytes 0xF000 20) =
      some [0, 0, 0, 4, 0, 0, 0, 1, 0, 0, 0, 2, 0, 0, 0, 3, 0, 0, 0, 4] := by decide
theorem test_apush_partial : -- ST12, with `sp` near the end of memory: room for two entries, EDX then ECX
    result .apush { start 1 2 1 with ecx := 3, edx := 4, sp := 0xFFF4 }
      (fun t => (t.faulted, t.mem.word 0xFFF4, t.mem.word 0xFFF8, t.mem.word 0xFFFC)) = some (true, 2, 3, 4) := by decide
theorem test_apop : -- W5's second instruction
    result .apop (withStack (start 0 0 2) 0xF000 4 [1, 2, 3, 4])
      (fun t => (t.eax, t.ebx, t.ecx, t.edx, t.mem.word 0xF000, t.mem.word 0xF010)) = some (1, 2, 3, 4, 0, 4) := by decide
theorem test_apop_partial : -- ST13
    result .apop (withStack (start 0 0 1) 0xF000 2 [10, 20]) (fun t => (t.faulted, t.eax, t.ebx, t.ecx, t.mem.word 0xF000))
      = some (true, 10, 20, 0, 0) := by decide
theorem test_jmp : -- CT4, and IP3
    result (.jmp 0xC0 (.mem 0x300)) (withByte (start 0 0 6) 0x300 0xF0) State.ip = some (-16) ∧
    result (.jmp 0x80 (.reg .ip)) (start 0 0 0x43) State.ip = some 0x43 := by decide
theorem test_jez : -- W9, CT11
    [(-1 : Word), 0, 1].map (fun v => result (.jez 0x60 (.const 0x20) (.reg .eax)) (start v 0 7) State.ip)
      = [some 7, some 0x20, some 7] ∧
    faults (.jez 0x70 (.const 0x20) (.mem (-1))) (start 5 0 10) = true := by decide
theorem test_jnz : -- W9, IP4
    [(-1 : Word), 0, 1].map (fun v => result (.jnz 0x60 (.const 0x20) (.reg .eax)) (start v 0 7) State.ip)
      = [some 0x20, some 7, some 0x20] ∧
    result (.jnz 0xA0 (.reg .ip) (.reg .eax)) (start 1 0 0x44) State.ip = some 0x43 := by decide
theorem test_jlz : -- W9, CT7
    [(-1 : Word), 0, 1, 0x80000000].map (fun v => result (.jlz 0x60 (.const 0x20) (.reg .eax)) (start v 0 7) State.ip)
      = [some 0x20, some 7, some 7, some 0x20] := by decide
theorem test_jgz : -- W9, CT8, IP7
    [(-1 : Word), 0, 1, 0x80000000].map (fun v => result (.jgz 0x60 (.const 0x20) (.reg .eax)) (start v 0 7) State.ip)
      = [some 7, some 7, some 0x20, some 7] ∧
    result (.jgz 0x60 (.const 0) (.reg .ip)) (start 0 0 0x47) State.ip = some 0 := by decide

/-! ## Steps -/

/-- Memory that holds one instruction at an address. -/
def holding (a : Nat) (i : Instr) : Memory := Memory.writeBytes [] a (encode i)

theorem holding_read {a : Nat} {i : Instr} {k : Nat} (hk : k < (encode i).length) :
    (holding a i).read (a + k) = (encode i)[k] := Memory.read_writeBytes_in hk

theorem decodeAt_holding {a : Nat} {i : Instr} (hi : Laws.RoundTrip.Statement i) (hw : i.wellFormed = true)
    (hf : a + i.len ≤ 0x10000) : decodeAt (holding a i) a = .ok i :=
  decodeAt_of_roundTrip hi hw (by omega) (by omega) fun _ hk => holding_read hk

/-- A machine with HLT at 0. -/
def hltAtZero : State := State.reset.setMem (holding 0 .hlt)

theorem decodeAt_hltAtZero : decodeAt hltAtZero.mem (wrapIp hltAtZero).ip.toInt = .ok .hlt :=
  decodeAt_holding Laws.RoundTrip.hlt rfl (by decide)

/-- W6: HLT alone halts after one step, with `ip = 1`, for every numbering. -/
theorem test_step_hlt : step hltAtZero = .next { hltAtZero with halted := true, ip := 1 } := by
  rw [step_ok rfl decodeAt_hltAtZero]; rfl

/-- W8's second step: `ip = 0x10000` wraps to 0 and HLT runs. -/
theorem test_step_wraps : step { hltAtZero with ip := 0x10000 } = .next { hltAtZero with halted := true, ip := 1 } := by
  rw [step_ok rfl (show decodeAt _ (wrapIp { hltAtZero with ip := 0x10000 }).ip.toInt = .ok .hlt from
    decodeAt_holding Laws.RoundTrip.hlt rfl (by decide))]
  rfl

/-- FW4: a negative `ip` faults at the fetch. -/
theorem test_step_negative_ip : step { hltAtZero with ip := -1 } =
    .next (State.raiseFault { hltAtZero with ip := -1 } .outOfBounds) := rfl

/-- A halted machine has no step (R90). -/
theorem test_step_halted : step { State.reset with halted := true } = .fault .runIsOver := rfl

/-- Where the host places an instruction: at the fetch address, little-endian table bytes in stream order. -/
theorem test_withFetchWord : (State.reset.withFetchWord 24 0x028006).mem.readBytes 0 4 = [0x06, 0x80, 0x02, 0x00] := by
  decide

/-! ## The assembler -/

/-- `sample`, extra operands an error, every type legal where the source gives no set. -/
def asmParams : AsmParams := ⟨sample, .error, fun _ _ _ => true⟩

/-- W2: `JMP end`, `:end`, `HLT`. -/
theorem test_assemble_forward_label :
    assemble asmParams ["JMP end".toList, ":end".toList, "HLT".toList] = .ok [10, 0x40, 0, 0, 0, 6, 16] := by decide

/-- W3, with the 4-byte destination of 90_conflicts.md C1. -/
theorem test_assemble_backward_label :
    assemble asmParams [":start".toList, "MOV EAX, 5".toList, "JMP start".toList]
      = .ok [1, 0x90, 0, 0, 0, 0, 5, 10, 0x40, 0, 0, 0, 0] := by decide

/-- R84, R86: an undefined label in brackets, with its line. -/
theorem test_assemble_undefined_label :
    assemble asmParams ["NOP".toList, "MOV EAX, [gone]".toList]
      = .error (.undefinedLabel, 2, "MOV EAX, [gone]".toList) := by decide

/-- R84, R81, R82: duplicate label, too few operands, unknown mnemonic, a token that is nothing. -/
theorem test_assemble_errors :
    assemble asmParams [":a".toList, ":a".toList] = .error (.duplicateLabel, 2, ":a".toList) ∧
    assemble asmParams ["PUSH".toList] = .error (.wrongArgumentCount, 1, "PUSH".toList) ∧
    assemble asmParams ["FOO".toList] = .error (.unknownOpcode, 1, "FOO".toList) ∧
    assemble asmParams ["JMP what".toList] = .error (.unrecognizedOperand, 1, "JMP what".toList) := by decide

/-- The choices of assumption logs 17 and 18: a comma alone counts as an operand; an undeclared bare name is unrecognized; a
line that is only `:` declares the empty name, which an empty token then refers to; MOV to a MemoryValue is rejected. -/
theorem test_assemble_choices :
    tokens "MOV EAX , 5".toList = ["MOV".toList, "EAX".toList, [], "5".toList] ∧
    classify [] [] = none ∧ classify [] "gone".toList = none ∧
    labelOf ":".toList = some [] ∧ classify [[]] [] = some (.const (.label [])) ∧
    classify [[]] "[]".toList = some (.mem (.label [])) ∧
    assemble asmParams ["MOV [0x100], EAX".toList] = .error (.illegalOperandType, 1, "MOV [0x100], EAX".toList) := by decide

/-- R83: decimal, hexadecimal, octal, sign, range. -/
theorem test_literals :
    literal "-2".toList = some (-2) ∧ literal "0x100".toList = some 0x100 ∧ literal "017".toList = some 15 ∧
    literal "0".toList = some 0 ∧ literal "4294967296".toList = none ∧ literal "09".toList = none := by decide

/-! ## Witnesses: every obligation's hypotheses are met, clause by clause, at the edges -/

/-- A byte that is no mnemonic's code. -/
def unknownByte : Byte := Config.opcodeDraw (BitVec.ofNat 8 18)

/-- A byte that is no register's id. -/
def unnamedByte : Byte := Config.registerIdDraw (BitVec.ofNat 8 6)

theorem witness_UnknownOpcodeIsNop : ∀ m, numbering.opc m ≠ unknownByte := by
  intro m h
  have h := Config.opcodeDraw.injective h
  revert h; cases m <;> decide

theorem witness_InvalidRegisterIdFaults : (∀ r, numbering.rid r ≠ unnamedByte) ∧ field 0x80 0 = 2 ∧ field 0x60 1 = 2 ∧
    tagAt 0x60 0 = (Operand.const 0).tag ∧ (Operand.const 0).tag ≠ .memoryValue := by
  refine ⟨fun r h => ?_, by decide, by decide, by decide, by decide⟩
  have h := Config.registerIdDraw.injective h
  revert h; cases r <;> decide

theorem witness_DecodeOfEncodeIsTheInstruction : (Instr.mov 0x9F (.reg .ip) (.const (-1))).wellFormed = true := by decide

theorem witness_DecodedBytesAreTheEncoding :
    decode [numbering.opc .mov, 0x90, numbering.rid .eax, 0x00, 0x00, 0x00, 0x05]
      = .ok (.mov 0x90 (.reg .eax) (.const 5), []) := test_decode_over_open_numbering

theorem witness_LengthFixedByOpcodeAndFlag :
    tableLen ((numbering.mnemonicOf (numbering.opc .mov)).getD .nop) 0x00 = none ∧
    tableLen ((numbering.mnemonicOf (numbering.opc .mov)).getD .nop) 0x50 = some 10 ∧
    tableLen ((numbering.mnemonicOf (numbering.opc .add)).getD .nop) 0x20 = some 4 := by
  simp only [Numbering.mnemonicOf_opc, Option.getD_some]; decide

theorem witness_UnconsultedFlagFieldsAreIgnored : argc .mov ≠ 0 ∧ (∀ k ∈ consulted .mov, field 0x90 k = field 0x9F k) ∧
    (∀ k ∈ consulted .add, field 0x10 k = field 0xDF k) := by decide

theorem witness_ReservedTagFaults : field 0x00 0 = 0 ∧ field 0x80 1 = 0 ∧ tagAt 0x80 0 = (Operand.reg .ip).tag ∧
    (Operand.reg .ip).tag ≠ .memoryValue ∧ tagAt 0xC0 0 = (Operand.mem 0).tag := by decide

theorem witness_TruncatedInstructionIsOutOfBounds : (Instr.jez 0x50 (.const 0) (.const 0)).wellFormed = true ∧
    9 < (Instr.jez 0x50 (.const 0) (.const 0)).len ∧ Instr.hlt.wellFormed = true ∧ 0 < Instr.hlt.len := by decide

/-- Its clause on memory: DEC32, a PUSH whose register byte would stand at 0x10000, and DEC30. -/
theorem witness_TruncatedInstructionInMemory :
    (0xFFFE < 0x10000 ∧ 0x10000 < 0xFFFE + (Instr.push 0x80 .eax).len ∧
      ∀ k, (hk : k < (encode (.push 0x80 .eax)).length) → 0xFFFE + k < 0x10000 →
        (holding 0xFFFE (.push 0x80 .eax)).read (0xFFFE + k) = (encode (.push 0x80 .eax))[k]) ∧
    0x10000 < 0xFFFC + (Instr.mov 0x90 (.reg .eax) (.const 5)).len :=
  ⟨⟨by decide, by decide, fun _ hk _ => holding_read hk⟩, by decide⟩

/-- DEC31's MOV, whose two operands stand at 0xFFFE and 0xFFFF, as the decoder block answers it. -/
theorem witness_DecoderReportsTheInstruction :
    decodeBlock (holding 0xFFFC (.mov 0xA0 (.reg .eax) (.reg .ip))) 0xFFFC =
      .ok (Decoded.of numbering 0xFFFC (.mov 0xA0 (.reg .eax) (.reg .ip))) ∧
    (Decoded.of numbering 0xFFFC (.mov 0xA0 (.reg .eax) (.reg .ip))).ops = [⟨.reg .eax, 0xFFFF⟩, ⟨.reg .ip, 0x10000⟩] :=
  ⟨decodeBlock_ok (decodeAt_holding (Laws.RoundTrip.mov _ _ _) (by decide) (by decide)), rfl⟩

theorem witness_IpOperandIsItsEnd :
    let s : State := { State.reset with ip := 0xFFFC, mem := holding 0xFFFC (.mov 0xA0 (.reg .eax) (.reg .ip)) }
    s.halted = false ∧ decodeBlock s.mem (wrapIp s).ip.toInt =
      .ok (Decoded.of numbering 0xFFFC (.mov 0xA0 (.reg .eax) (.reg .ip))) :=
  ⟨rfl, witness_DecoderReportsTheInstruction.1⟩

theorem witness_DecodeReadsOnlyTheInstruction : decodeAt hltAtZero.mem 0 = .ok .hlt ∧
    ∀ k < Instr.hlt.len, hltAtZero.mem.read (Int.toNat 0 + k) = (hltAtZero.mem.write 1 7).read (Int.toNat 0 + k) := by
  refine ⟨decodeAt_hltAtZero, fun k hk => ?_⟩
  rw [Memory.read_write_ne]
  simp only [Instr.len] at hk
  simp; omega

theorem witness_StepRunsTheDecodedInstruction :
    hltAtZero.halted = false ∧ decodeAt hltAtZero.mem (wrapIp hltAtZero).ip.toInt = .ok .hlt := ⟨rfl, decodeAt_hltAtZero⟩

/-- DEC31: a four-byte MOV that ends with memory, at 0xFFFC. -/
theorem witness_StepRunsTheEncodedInstruction :
    let i := Instr.mov 0xA0 (.reg .eax) (.reg .ebx)
    let s : State := { State.reset with ip := 0xFFFC, mem := holding 0xFFFC i }
    s.halted = false ∧ i.wellFormed = true ∧ 0 ≤ s.ip.toInt ∧ s.ip.toInt + i.len ≤ 0x10000 ∧
      ∀ k, (hk : k < (encode i).length) → s.mem.read (s.ip.toNat + k) = (encode i)[k] :=
  ⟨rfl, by decide, by decide, by decide, fun _ hk => holding_read hk⟩

theorem witness_StepWrapsIpToZero : State.reset.halted = false ∧ (0x10000 : Int) ≤ (0x10000 : Word).toInt ∧
    (0x10000 : Int) ≤ (0x7FFFFFFF : Word).toInt := by decide

theorem witness_NegativeIpFaultsAtFetch : (start 0 0 (-1)).halted = false ∧ (start 0 0 (-1)).ip.toInt < 0 ∧
    (start 0 0 0x80000000).ip.toInt < 0 := by decide

theorem witness_DecodeFaultLeavesTheState : (start 0 0 (-1)).halted = false ∧
    decodeAt (start 0 0 (-1)).mem (wrapIp (start 0 0 (-1))).ip.toInt = .error .outOfBounds := ⟨rfl, rfl⟩

/-- A MOV and its flag byte in the last two bytes of memory. -/
theorem witness_MovWithBadDestinationFaults (ff : Byte) :
    let s : State := { State.reset with ip := 0xFFFE, mem := Memory.writeBytes [] 0xFFFE [numbering.opc .mov, ff] }
    s.halted = false ∧ 0 ≤ s.ip.toInt ∧ s.ip.toInt + 2 ≤ 0x10000 ∧ s.mem.read s.ip.toNat = numbering.opc .mov ∧
      s.mem.read (s.ip.toNat + 1) = ff ∧ field 0xD0 0 = 3 ∧ field 0x3F 0 = 0 := by
  refine ⟨rfl, show 0 ≤ (0xFFFE : Word).toInt by decide, show (0xFFFE : Word).toInt + 2 ≤ 0x10000 by decide, ?_, ?_,
    by decide, by decide⟩
  · exact Memory.read_writeBytes_in (m := []) (a := 0xFFFE) (bs := [numbering.opc .mov, ff]) (k := 0) (by simp)
  · exact Memory.read_writeBytes_in (m := []) (a := 0xFFFE) (bs := [numbering.opc .mov, ff]) (k := 1) (by simp)

theorem witness_RunningMachineAlwaysSteps : State.reset.halted = false ∧ ({ State.reset with halted := true } : State).halted = true :=
  ⟨rfl, rfl⟩

theorem witness_IpIsPastTheInstruction : ∃ t, step hltAtZero = .next t ∧
    decodeAt hltAtZero.mem (wrapIp hltAtZero).ip.toInt = .ok .hlt ∧ hltAtZero.faulted = false ∧ t.faulted = false ∧
    Reg.ip ∉ writtenRegs .hlt := ⟨_, test_step_hlt, decodeAt_hltAtZero, rfl, rfl, by decide⟩

theorem witness_StepKeepsTheInvariant : hltAtZero.Inv ∧ ∃ t, step hltAtZero = .next t :=
  ⟨⟨Memory.wf_writeBytes Memory.wf_nil (by decide), by intro h; cases h⟩, _, test_step_hlt⟩

theorem witness_CanonicalMemoryIsUnique : Memory.wf [(0, 1), (0xFFFF, 255)] ∧
    ∀ a, Memory.read [(0, 1), (0xFFFF, 255)] a = Memory.read ((Memory.write [] 0xFFFF 255).write 0 1) a :=
  ⟨by decide, fun _ => rfl⟩

/-- A DIV by zero, the fault the statements about faults are met by. -/
theorem witness_fault : exec (.div 0x90 .eax (.const 0)) State.reset = .next (State.reset.raiseFault .divideByZero) := rfl

theorem witness_HaltedFlag : (exec .hlt State.reset = .next State.reset.halt) ∧ State.reset.faulted = false ∧
    (State.reset.raiseFault .divideByZero).faulted = true ∧ State.reset.halted = false ∧ State.reset.halt.halted = true :=
  ⟨rfl, rfl, rfl, rfl, rfl⟩

theorem witness_FaultedFlag : ∃ t, exec (.div 0x90 .eax (.const 0)) State.reset = .next t ∧ State.reset.faulted = false ∧
    t.faulted = true ∧ exec .hwid t = .next t := ⟨_, witness_fault, rfl, rfl, rfl⟩

theorem witness_FaultsArePrecise : ∃ t, exec (.div 0x90 .eax (.const 0)) State.reset = .next t ∧ State.reset.faulted = false ∧
    t.faulted = true ∧ Instr.div 0x90 .eax (.const 0) ≠ .apush ∧ Instr.div 0x90 .eax (.const 0) ≠ .apop :=
  ⟨_, witness_fault, rfl, rfl, by decide, by decide⟩

theorem not_readable_of {a : Word} (h : ¬ (0 ≤ a.toInt ∧ a.toInt < 0x10000)) : ¬ Readable (.mem a) := h

theorem witness_UnreadableOperandFaults : ¬ Readable (.mem 0x10000) ∧ ¬ Readable (.mem (-1)) :=
  ⟨not_readable_of (by decide), not_readable_of (by decide)⟩

/-- Operands of every form that can be read, at the edges of memory. -/
theorem witness_readable : Readable (.const (-1)) ∧ Readable (.reg .ip) ∧ Readable (.mem 0) ∧ Readable (.mem 0xFFFF) :=
  ⟨trivial, trivial, by constructor <;> decide, by constructor <;> decide⟩

theorem witness_MovWritesTheRegister : Readable (.mem 0xFFFF) := witness_readable.2.2.2
theorem witness_MovStoresOneByte : Readable (.reg .ip) ∧ (0 ≤ (0 : Word).toInt ∧ (0 : Word).toInt < 0x10000) ∧
    (0 ≤ (0xFFFF : Word).toInt ∧ (0xFFFF : Word).toInt < 0x10000) ∧ (-1 : Word).toInt < 0 ∧
    (0x10000 : Int) ≤ (0x10000 : Word).toInt := ⟨trivial, by decide, by decide, by decide, by decide⟩
theorem witness_MovLoadsOneSignedByte : (0 ≤ (0 : Word).toInt ∧ (0 : Word).toInt < 0x10000) ∧
    (0 ≤ (0xFFFF : Word).toInt ∧ (0xFFFF : Word).toInt < 0x10000) := by decide
theorem witness_AddSubMulWrap : Readable (.mem 0) := witness_readable.2.2.1
theorem witness_AddSubMulAreRingOperations : Readable (.reg .ip) := trivial
theorem witness_DivTruncatesOrFaults : Readable (.const 0) ∧ lastValue State.reset (.const 0) = 0 ∧
    lastValue State.reset (.const (-1)) ≠ 0 := ⟨trivial, by decide, by decide⟩
/-- Every row of the sign table, the wrapping one first. -/
theorem witness_DivSignTable : Readable (.const (-1)) ∧ Reg.eax ≠ .ip ∧ lastValue (start 0x80000000 0 0) (.const (-1)) ≠ 0 ∧
    ((start 0x80000000 0 0).reg .eax).toInt = -2 ^ 31 ∧ 0 ≤ ((start 7 0 0).reg .eax).toInt ∧
    ((start (-7) 0 0).reg .eax).toInt < 0 ∧ 0 < (lastValue State.reset (.const 2)).toInt :=
  ⟨trivial, by decide, by decide, by decide, by decide, by decide, by decide⟩

theorem witness_CanPush : CanPush State.reset ∧ CanPush (withStack State.reset 0xFFF8 0 []) ∧
    CanPush (withStack State.reset 0xF000 1022 []) := by unfold CanPush stackCount; decide
theorem witness_PushEffect : CanPush (withStack State.reset 0xFFF8 0 []) := witness_CanPush.2.1
theorem witness_PushThenPopRestores : CanPush (withStack State.reset 0xF000 1022 []) := witness_CanPush.2.2
/-- ST4, ST5, ST7, ST9, ST10. -/
theorem witness_PushFaults : ¬ CanPush (withStack State.reset 0xF000 1023 []) ∧ ¬ CanPush (withStack State.reset 0xF000 (-1) []) ∧
    ¬ CanPush { State.reset with sp := 0xFFFC } ∧ ¬ CanPush { State.reset with sp := 0xFFFD } ∧
    ¬ CanPush { State.reset with sp := -4 } := by unfold CanPush stackCount; decide
theorem witness_StackCapacity : State.reset.faulted = false ∧ State.reset.sp = 0xF000 ∧
    stackCount (withStack State.reset 0xF000 1022 []) = 1022 ∧ (0 : Int) ≤ (0xFFF8 : Word).toInt ∧
    (0xFFF8 : Word).toInt ≤ 0xFFF8 ∧ (0 : Int) ≤ (0 : Word).toInt := by unfold stackCount; decide
theorem witness_PopEffect : CanPop (withStack State.reset 0xFFF8 1 [7]) ∧ CanPop (withStack State.reset 0xF000 1023 []) := by
  unfold CanPop stackCount; decide
/-- ST2, ST6, ST8, ST9, ST10. -/
theorem witness_PopFaults : ¬ CanPop State.reset ∧ ¬ CanPop (withStack State.reset 0xF000 (-1) []) ∧
    ¬ CanPop (withStack State.reset 0xFFFC 1 []) ∧ ¬ CanPop { State.reset with sp := 0xFFFD } ∧
    ¬ CanPop { State.reset with sp := -4 } := by unfold CanPop stackCount; decide
theorem witness_ApushEffect : CanPushFour State.reset ∧ CanPushFour (withStack State.reset 0xF000 1019 []) := by
  unfold CanPushFour stackCount; decide
theorem witness_ApopEffect : CanPopFour (withStack State.reset 0xF000 4 [1, 2, 3, 4]) ∧
    CanPopFour (withStack State.reset 0xFFEC 4 [1, 2, 3, 4]) := by unfold CanPopFour stackCount; decide
theorem witness_ApushThenApopRestores : CanPushFour State.reset ∧ ∃ t, exec .apush State.reset = .next t ∧
    (∃ t' : State, t'.mem = t.mem ∧ t'.sp = t.sp) :=
  ⟨witness_ApushEffect.1, _, rfl, _, rfl, rfl⟩
theorem witness_ApushApopAreSequences : State.reset.faulted = false := rfl

theorem witness_JmpGoesToItsDestination : Readable (.mem 0xFFFF) := witness_readable.2.2.2
theorem witness_ConditionalJumps : Readable (.mem 0) ∧ Readable (.mem 0xFFFF) ∧ (lastValue State.reset (.const 0)).toInt = 0 ∧
    (lastValue State.reset (.const (-1))).toInt < 0 ∧ (lastValue State.reset (.const 1)).toInt > 0 :=
  ⟨witness_readable.2.2.1, witness_readable.2.2.2, by decide, by decide, by decide⟩

theorem witness_RegisterFrame : ∃ t, exec (.mov 0x90 (.reg .eax) (.const 5)) State.reset = .next t ∧
    Reg.ebx ∉ writtenRegs (.mov 0x90 (.reg .eax) (.const 5)) ∧ Reg.ebx ≠ .ip ∧ State.reset.faulted = false ∧
    t.faulted = false ∧ Reg.ip ∉ writtenRegs (.mov 0x90 (.reg .eax) (.const 5)) :=
  ⟨_, rfl, by decide, by decide, rfl, rfl, by decide⟩
theorem witness_MemoryFrame : ∃ t, exec (.mov 0x60 (.const 0xFFFF) (.reg .eax)) State.reset = .next t := ⟨_, rfl⟩
theorem witness_StatusFlagsAreNotRead : ∃ t, exec (.pop 0x80 .eax) State.reset = .next t := ⟨_, rfl⟩

theorem witness_BytesOfAWrittenWord : ∃ m', memWrite4 [] 0xFFFC 0x01020304 = .ok m' ∧ 3 < 4 := ⟨_, rfl, by decide⟩
/-- An empty move at the end of memory, and one of negative length. -/
theorem witness_BlockMoveIsMemmove : ((0 : Int) ≤ 0 ∧ (0 : Int) ≤ 0x10000 ∧ (0x10000 : Int) + 0 ≤ 0x10000) ∧
    ((0 : Int) ≤ 8 ∧ (0 : Int) ≤ 0 ∧ (0 : Int) + 8 ≤ 0x10000 ∧ (0 : Int) ≤ 0xFFF8 ∧ (0xFFF8 : Int) + 8 ≤ 0x10000) ∧
    ¬ (0 : Int) ≤ -1 := by decide
theorem witness_FlagBytePacksTheTags : 3 < 4 ∧ flagByte [.register] = 0x80 := by decide
theorem witness_LoadedMachineIsReset : ([] : List Byte).length ≤ 0x10000 ∧ (List.replicate 0x10000 (1 : Byte)).length ≤ 0x10000 :=
  ⟨by decide, List.length_replicate.le⟩
theorem witness_OversizedImageIsRefused : 0x10000 < (List.replicate 0x10001 (1 : Byte)).length :=
  List.length_replicate.symm ▸ Nat.lt_succ_self 0x10000
theorem witness_DumpContent : State.reset.halted = false ∧ State.reset.halt.halted = true := ⟨rfl, rfl⟩

/-- One emitted instruction of each decoder layout. -/
theorem witness_EmittedInstructionDecodesInStep :
    AsmLine.emit asmParams [] (.instr .mov [.const (.literal 0x100), .reg .ebx]) = .ok [1, 0x60, 0, 0, 1, 0, 1] ∧
    AsmLine.emit asmParams [] (.instr .add [.reg .eax, .mem (.literal 3)]) = .ok [2, 0xB0, 0, 0, 0, 0, 3] ∧
    AsmLine.emit asmParams [] (.instr .push [.reg .ip]) = .ok [6, 0x80, 5] ∧
    AsmLine.emit asmParams [] (.instr .apop []) = .ok [9] ∧
    [AsmOperand.reg .eax, .mem (.literal 3)].length = argc .add ∧
    [AsmOperand.reg .eax, .mem (.literal 3)].mapM (AsmOperand.resolve []) = .ok [.reg .eax, .mem 3] := by decide

end Sys2Proof.Tests
end

section
/-! What the decoder reads, over the bytes in memory: a decode that succeeds read the encoding of its answer, every encoding
is an opcode byte, at most one flag byte and the operands' payloads back to back, and `extract` says where they stand. -/

namespace Sys2Proof

variable {N : Numbering} {op : Byte} {bs rest : List Byte} {i : Instr} {os : List Operand} {c : Int} {o : Extracted}

/-! ## What the bytes were when a decode succeeds -/

/-- A NOP is well-formed when its byte selects NOP: the code of NOP, or of no mnemonic (R64, R93). -/
theorem wellFormedWith_nop : (Instr.nop op).wellFormedWith N = true ↔ (N.mnemonicOf op).getD .nop = .nop := by
  simp only [Instr.wellFormedWith, List.all_eq_true, Bool.or_eq_true, beq_iff_eq, bne_iff_ne]
  constructor
  · intro h
    cases hm : N.mnemonicOf op with
    | none => rfl
    | some m => exact (h m m.mem_all).resolve_right (not_not.2 (Numbering.mnemonicOf_eq_some.1 hm))
  · rintro h m -
    refine or_iff_not_imp_right.2 fun ho => ?_
    rwa [Numbering.mnemonicOf_eq_some.2 (not_not.1 ho)] at h

/-- The decoder accepts well-formed instructions only, and consumes exactly their encoding. -/
theorem decodeWith_eq_ok (h : decodeWith N bs = .ok (i, rest)) :
    i.wellFormedWith N = true ∧ bs = encodeWith N i ++ rest := by
  cases bs with
  | nil => cases h
  | cons op bs =>
    rw [decodeWith_cons] at h
    cases hm : (N.mnemonicOf op).getD .nop <;> rw [hm] at h
    case nop =>
      cases h
      exact ⟨wellFormedWith_nop.2 hm, rfl⟩
    case apush | apop | hwid | hlt =>
      cases h
      exact ⟨rfl, by rw [← opc_of_getD (by decide) hm]; rfl⟩
    case mov =>
      obtain ⟨ff, d, v, rfl, hd, hv, hne, rfl⟩ := decodeMov_eq_ok h
      exact ⟨by simp [Instr.wellFormedWith, hd, hv, hne], by simp [encodeWith, opc_of_getD (by decide) hm]⟩
    case add | sub | mul | div =>
      obtain ⟨ff, r, v, rfl, hv, rfl⟩ := decodeArith_eq_ok h
      exact ⟨by simp [Instr.wellFormedWith, hv], by simp [encodeWith, opc_of_getD (by decide) hm]⟩
    case push | pop =>
      obtain ⟨ff, r, rfl, rfl⟩ := decodeStack_eq_ok h
      exact ⟨rfl, by simp [encodeWith, opc_of_getD (by decide) hm]⟩
    case jmp =>
      obtain ⟨ff, d, rfl, hd, rfl⟩ := decodeJmp_eq_ok h
      exact ⟨by simp [Instr.wellFormedWith, hd], by simp [encodeWith, opc_of_getD (by decide) hm]⟩
    case jez | jnz | jlz | jgz =>
      obtain ⟨ff, d, v, rfl, hd, hv, rfl⟩ := decodeCond_eq_ok h
      exact ⟨by simp [Instr.wellFormedWith, hd, hv], by simp [encodeWith, opc_of_getD (by decide) hm]⟩
    case int =>
      obtain ⟨ff, rfl, rfl⟩ := decodeInt_eq_ok h
      exact ⟨rfl, by simp [encodeWith, opc_of_getD (by decide) hm]⟩

/-! ## The one layout of all encodings (R61) -/

theorem encodeWith_eq_append : encodeWith N i =
    i.opcodeByte N :: (i.flagByte.toList ++ i.operands.flatMap (Operand.bytes N)) := by
  cases i <;> simp [encodeWith, Instr.opcodeByte, Instr.flagByte, Instr.operands, Operand.bytes]

/-- The opcode byte selects the instruction's mnemonic (R93). -/
theorem mnemonicOf_opcodeByte (h : i.wellFormedWith N = true) :
    (N.mnemonicOf (i.opcodeByte N)).getD .nop = i.mnemonic := by
  cases i
  case nop op => exact wellFormedWith_nop.1 h
  all_goals simp [Instr.opcodeByte, Instr.mnemonic]

/-- A flag byte stands in every instruction with arguments and in no other (R94). -/
theorem flagByte_eq_none : i.flagByte = none ↔ argc i.mnemonic = 0 := by
  cases i <;> simp [Instr.flagByte, Instr.mnemonic, argc]

theorem operands_of_flagByte_none (h : i.flagByte = none) : i.operands = [] := by
  cases i <;> simp_all [Instr.flagByte, Instr.operands]

/-- As many operands as arguments, but for INT, whose payload is not read (R72, R96). -/
theorem length_operands : i.operands.length = if i.mnemonic = .int then 0 else argc i.mnemonic := by
  cases i <;> rfl

theorem len_of_operands_ne_nil (h : i.operands ≠ []) : i.len = 2 + (i.operands.map Operand.payloadLen).sum := by
  cases i <;> simp_all [Instr.operands, Instr.len, Operand.payloadLen] <;> omega

/-! ## Where the operands stand -/

theorem start_of_mem_head?_extract (h : o ∈ (extract c os).head?) : o.endAddr - o.operand.payloadLen = c := by
  cases os with
  | nil => cases h
  | cons p os =>
    cases h
    exact add_sub_cancel_right c _

/-- Each payload begins where the one before it ends. -/
theorem start_eq_end_of_extract {o₁ o₂ : Extracted} {es : List Extracted} (h : extract c os = o₁ :: o₂ :: es) :
    o₂.endAddr - o₂.operand.payloadLen = o₁.endAddr := by
  match os, h with
  | _ :: _ :: _, h =>
    cases h
    exact add_sub_cancel_right _ _

theorem end_of_mem_getLast?_extract (h : o ∈ (extract c os).getLast?) :
    o.endAddr = c + (os.map Operand.payloadLen).sum := by
  induction os generalizing c with
  | nil => cases h
  | cons p os ih =>
    cases os with
    | nil =>
      obtain rfl : _ = o := by simpa [extract] using h
      simp
    | cons q os =>
      have := ih (c := c + p.payloadLen) (by simpa [extract] using h)
      simp only [List.map_cons, List.sum_cons] at this ⊢
      omega

end Sys2Proof

namespace Sys2Proof.Machine

variable {N : Numbering} {m : Memory} {x : Nat} {b : Byte} {bs cs : List Byte} {i : Instr} {a c : Int}
  {os : List Operand} {o : Extracted}

/-! ## Blocks of bytes that stand in memory -/

/-- The bytes stand in memory from `x` on. -/
def Memory.Holds (m : Memory) (x : Nat) (bs : List Byte) : Prop := m.readBytes x bs.length = bs

theorem Memory.Holds.read {k : Nat} (h : m.Holds x bs) (hk : k < bs.length) : m.read (x + k) = bs[k] := by
  have hr := Memory.getElem?_readBytes (m := m) (a := x) hk
  rw [h, List.getElem?_eq_getElem hk, Option.some.injEq] at hr
  exact hr.symm

theorem Memory.holds_cons : m.Holds x (b :: bs) ↔ m.read x = b ∧ m.Holds (x + 1) bs := by
  simp [Memory.Holds, Memory.readBytes]

theorem Memory.holds_append : m.Holds x (bs ++ cs) ↔ m.Holds x bs ∧ m.Holds (x + bs.length) cs := by
  simp only [Memory.Holds, List.length_append, Memory.readBytes_add]
  constructor
  · exact fun h => List.append_inj h Memory.length_readBytes
  · rintro ⟨hb, hc⟩
    rw [hb, hc]

/-- Memory holds the beginning of every window read from it. -/
theorem holds_of_fetchWindow (h : fetchWindow m x = bs ++ cs) : m.Holds x bs := by
  have hl : min maxInstrBytes (Config.memSize - x) = (bs ++ cs).length := by rw [← h, length_fetchWindow]
  unfold fetchWindow at h
  rw [hl] at h
  exact (Memory.holds_append.1 h).1

/-- Memory holds the encoding of every instruction that is decoded in it, and that instruction is well-formed. -/
theorem decodeAt_eq_ok (h : decodeAt m a = .ok i) :
    0 ≤ a ∧ i.wellFormed = true ∧ m.Holds a.toNat (encode i) := by
  by_cases ha : inBounds a 1
  · rw [decodeAt_in ha] at h
    cases hd : decode (fetchWindow m a.toNat) with
    | error f => rw [hd] at h; cases h
    | ok p =>
      rw [hd] at h
      cases h
      obtain ⟨hw, hb⟩ := decodeWith_eq_ok hd
      exact ⟨ha.1, hw, holds_of_fetchWindow hb⟩
  · rw [decodeAt_out ha] at h
    cases h

/-- An encoding in memory, field by field. -/
theorem holds_encodeWith (h : m.Holds x (encodeWith N i)) :
    m.read x = i.opcodeByte N ∧ (∀ ff ∈ i.flagByte, m.read (x + 1) = ff) ∧
      m.Holds (x + 2) (i.operands.flatMap (Operand.bytes N)) := by
  rw [encodeWith_eq_append, Memory.holds_cons] at h
  obtain ⟨hop, h⟩ := h
  refine ⟨hop, ?_⟩
  cases hf : i.flagByte with
  | none => simp [operands_of_flagByte_none hf, Memory.Holds, Memory.readBytes]
  | some ff =>
    rw [hf, Option.toList_some, List.singleton_append, Memory.holds_cons] at h
    exact ⟨by rintro _ ⟨⟩; exact h.1, h.2⟩

/-- Payloads that stand in memory back to back each stand below the end that `extract` gives them. -/
theorem holds_of_mem_extract (hc : 0 ≤ c) (h : m.Holds c.toNat (os.flatMap (Operand.bytes N))) (ho : o ∈ extract c os) :
    m.Holds (o.endAddr - o.operand.payloadLen).toNat (o.operand.bytes N) := by
  induction os generalizing c with
  | nil => cases ho
  | cons p os ih =>
    rw [List.flatMap_cons, Memory.holds_append, Operand.length_bytes] at h
    obtain ⟨hp, hos⟩ := h
    rcases List.mem_cons.1 ho with rfl | ho
    · rwa [add_sub_cancel_right]
    · exact ih (by omega) (by rwa [Int.toNat_add hc (by omega), Int.toNat_natCast]) ho

/-- Settles O59: the bytes at `a` are the encoding of the answer, read off field by field. -/
theorem decoderReportsTheInstruction : Obligations.DecoderReportsTheInstruction := by
  intro m a d h
  obtain ⟨i, hi, rfl⟩ := decodeBlock_eq_ok.1 h
  obtain ⟨ha, hw, hb⟩ := decodeAt_eq_ok hi
  obtain ⟨hop, hff, hos⟩ := holds_encodeWith hb
  have hm : i.mnemonic = (numbering.mnemonicOf (i.opcodeByte numbering)).getD .nop := (mnemonicOf_opcodeByte hw).symm
  refine ⟨hi, rfl, rfl, map_operand_extract _ _, hop.symm, hm, ?flag, ?count, fun _ => start_of_mem_head?_extract,
    fun _ _ => start_eq_end_of_extract, ?last, ?payload⟩
  case flag =>
    show i.flagByte = if argc i.mnemonic = 0 then none else some (m.read (a.toNat + 1))
    cases hf : i.flagByte with
    | none => rw [if_pos (flagByte_eq_none.1 hf)]
    | some ff => rw [if_neg (by simp [← flagByte_eq_none, hf]), hff ff hf]
  case count => exact (length_extract _ _).trans length_operands
  case last =>
    intro o ho
    have hne : i.operands ≠ [] := by
      intro hn
      simp [Decoded.of, hn, extract] at ho
    rw [end_of_mem_getLast?_extract ho]
    show _ = a + (i.len : Int)
    rw [len_of_operands_ne_nil hne]
    omega
  case payload =>
    intro o ho k hk
    exact (holds_of_mem_extract (by omega) (by rwa [Int.toNat_add ha (by omega)]) ho).read hk

end Sys2Proof.Machine
end

section
/-! What an instruction does to the status flags and to the free draw of `ip`; and a memory in canonical form is determined
by its reads. -/

namespace Sys2Proof.Machine

variable {m m' : Memory} {s t : State} {i : Instr}

/-! ## The canonical form -/

/-- Rising addresses leave one order for the entries, and the reads say which entries there are. -/
theorem Memory.eq_of_read_eq (hm : m.wf) (hm' : m'.wf) (h : ∀ a, m.read a = m'.read a) : m = m' := by
  have : Std.Asymm fun c d : Host.Cell => c.1 < d.1 := ⟨fun _ _ => Nat.lt_asymm⟩
  have hmem : ∀ c, c ∈ m ↔ c ∈ m' := fun c => by rw [Memory.mem_iff_read hm, Memory.mem_iff_read hm', h]
  exact hm.1.eq_of_mem_iff hm'.1 hmem

/-- Settles O21: canonical memories that read alike have the same entries, in the same rising order. -/
theorem canonicalMemoryIsUnique : Obligations.CanonicalMemoryIsUnique :=
  fun _ _ => Memory.eq_of_read_eq

/-! ## Runs of pushes and pops up to the first fault -/

/-- A run of pushes ends well, or in a fault taken from a state that pushes alone had led to. -/
theorem pushAll_cases {P : State → Prop} {rs : List Reg}
    (hpush : ∀ s v, P s → CanPush s → P (s.setMem (pushedMem s.mem (stackBase s) (stackCount s).toNat v)))
    (hs : P s) (h : pushAll rs s = .next t) : P t ∨ ∃ u f, P u ∧ t = u.raiseFault f := by
  induction rs generalizing s with
  | nil => cases h; exact .inl hs
  | cons r rs ih =>
    by_cases hc : CanPush s
    · rw [pushAll_cons_ok hc] at h
      exact ih (hpush _ _ hs hc) h
    · obtain ⟨f, hf⟩ := pushAll_cons_error (r := r) (rs := rs) hc
      rw [hf] at h
      cases h
      exact .inr ⟨s, f, hs, rfl⟩

/-- The same for a run of pops. -/
theorem popAll_cases {P : State → Prop} {rs : List Reg}
    (hpop : ∀ s r, P s → CanPop s → P ((s.setMem (poppedMem s.mem (stackBase s) (stackCount s).toNat)).setReg r
      (s.mem.word (stackBase s + 4))))
    (hs : P s) (h : popAll rs s = .next t) : P t ∨ ∃ u f, P u ∧ t = u.raiseFault f := by
  induction rs generalizing s with
  | nil => cases h; exact .inl hs
  | cons r rs ih =>
    by_cases hc : CanPop s
    · rw [popAll_cons_ok hc] at h
      exact ih (hpop _ _ hs hc) h
    · obtain ⟨f, hf⟩ := popAll_cons_error (r := r) (rs := rs) hc
      rw [hf] at h
      cases h
      exact .inr ⟨s, f, hs, rfl⟩

/-! ## The status flags -/

theorem sameStatus_refl : SameStatus s s := ⟨rfl, rfl, rfl⟩

theorem sameStatus_setReg {r : Reg} {v : Word} : SameStatus s t → SameStatus s (t.setReg r v) := by
  simp [SameStatus]

theorem sameStatus_setMem : SameStatus s t → SameStatus s (t.setMem m) := id

/-- All an instruction can do to the status flags and the draw counter: leave them alone, halt if it is HLT, or fault
while they are still as they were. -/
theorem exec_status (h : exec i s = .next t) :
    SameStatus s t ∨ (i = .hlt ∧ t = s.halt) ∨ ∃ u f, SameStatus s u ∧ t = u.raiseFault f := by
  by_cases hi : i = .apush
  · subst hi
    exact (pushAll_cases (fun _ _ hu _ => sameStatus_setMem hu) sameStatus_refl h).imp_right .inr
  by_cases hi' : i = .apop
  · subst hi'
    exact (popAll_cases (fun _ _ hu _ => sameStatus_setReg (sameStatus_setMem hu)) sameStatus_refl h).imp_right .inr
  rcases exec_cases hi hi' h with rfl | hhlt | ⟨r, -, w, rfl⟩ | ⟨a, b, -, -, rfl⟩ | ⟨w, -, -, rfl⟩ | ⟨r, -, -, -, rfl⟩ |
    ⟨f, rfl⟩
  · exact .inl sameStatus_refl
  · exact .inr (.inl hhlt)
  · exact .inl (sameStatus_setReg sameStatus_refl)
  · exact .inl (sameStatus_setMem sameStatus_refl)
  · exact .inl (sameStatus_setMem sameStatus_refl)
  · exact .inl (sameStatus_setReg (sameStatus_setMem sameStatus_refl))
  · exact .inr (.inr ⟨s, f, sameStatus_refl, rfl⟩)

/-- Settles O22: the three ways an instruction can leave the status flags, and that `step` asks for `halted` first. -/
theorem haltedFlag : Obligations.HaltedFlag := by
  refine ⟨rfl, fun s t h => ?hlt, fun i s t h => ?exec, fun _ => step_halted⟩
  case hlt =>
    cases h
    rfl
  case exec =>
    rcases exec_status h with ⟨hh, hf, -⟩ | ⟨rfl, rfl⟩ | ⟨u, f, -, rfl⟩
    · simp +contextual [hh, hf]
    · simp
    · simp

/-- Settles O23: the same three ways; only the fault sets `faulted`, and it draws at the counter the instruction began
with. -/
theorem faultedFlag : Obligations.FaultedFlag := by
  refine ⟨rfl, fun i s t h => ?_⟩
  rcases exec_status h with ⟨-, hf, -⟩ | ⟨-, rfl⟩ | ⟨u, f, ⟨-, -, hd⟩, rfl⟩
  · simp +contextual [hf]
  · simp +contextual
  · simp [hd]

end Sys2Proof.Machine
end

section
/-! What the checked accesses, the block move and whole instructions leave in memory, byte by byte. -/

namespace Sys2Proof.Machine

variable {m m' : Memory} {a : Int} {w : Word} {s t u : State} {r : Reg} {rs : List Reg}
  {lo hi lo' hi' : Nat}

/-! ## The bytes of a written word -/

/-- Byte `k` of a word, most significant first (R40, R41). -/
theorem getElem_be32Bytes {k : Nat} (hk : k < (be32Bytes w).length) :
    (be32Bytes w)[k] = w.extractLsb' (24 - 8 * k) 8 := by
  match k, hk with
  | 0, _ | 1, _ | 2, _ | 3, _ => rfl

theorem memWrite4_eq_ok : memWrite4 m a w = .ok m' ↔ inBounds a 4 ∧ m' = m.writeBytes a.toNat (be32Bytes w) := by
  by_cases hb : inBounds a 4
  · rw [memWrite4_ok hb, Except.ok.injEq, eq_comm, and_iff_right hb]
  · rw [memWrite4, if_neg hb]
    exact iff_of_false (by simp) (fun h => hb h.1)

/-- Settles O52: byte `k` of the block that the write stored. -/
theorem bytesOfAWrittenWord : Obligations.BytesOfAWrittenWord := by
  intro m m' a w k h hk
  obtain ⟨⟨ha, ha'⟩, rfl⟩ := memWrite4_eq_ok.1 h
  have hb : inBounds (a + k) 1 := ⟨by omega, by omega⟩
  have hx : (a + k).toNat = a.toNat + k := by omega
  rw [memRead1_ok hb, hx, Memory.read_writeBytes_in (by simpa using hk), getElem_be32Bytes]

/-! ## The block move -/

/-- A block that was read from one memory and stored in another. -/
theorem Memory.read_writeBytes_readBytes {d x n k : Nat} (hk : k < n) :
    (m.writeBytes d (m'.readBytes x n)).read (d + k) = m'.read (x + k) := by
  have hl : k < (m'.readBytes x n).length := by simpa using hk
  rw [Memory.read_writeBytes_in hl, ← Option.some_inj, ← List.getElem?_eq_getElem hl, Memory.getElem?_readBytes hk]

/-- Settles O53: the source block is read whole from the memory before the move, so overlap plays no part. -/
theorem blockMoveIsMemmove : Obligations.BlockMoveIsMemmove := by
  intro m dst src len
  have hin : (0 ≤ len ∧ 0 ≤ src ∧ src + len ≤ 0x10000 ∧ 0 ≤ dst ∧ dst + len ≤ 0x10000) ↔
      0 ≤ len ∧ inBounds src len ∧ inBounds dst len := by
    simp only [inBounds, Config.memSize, and_assoc, Nat.cast_ofNat]
  rw [hin]
  refine ⟨fun h => ⟨_, memMove_ok h, fun k hk => ?inside, fun x hx => ?outside⟩, memMove_error⟩
  case inside => exact Memory.read_writeBytes_readBytes (by omega)
  case outside =>
    obtain ⟨hlen, -, hdst, -⟩ := h
    exact Memory.read_writeBytes_out (by rw [Memory.length_readBytes]; omega)

/-! ## The memory frame of an instruction (R45) -/

theorem memOutside_of_mem_eq (h : t.mem = s.mem) : MemOutside lo hi s t := fun _ _ => by rw [h]

theorem MemOutside.trans (h : MemOutside lo hi s u) (h' : MemOutside lo hi u t) : MemOutside lo hi s t :=
  fun x hx => (h' x hx).trans (h x hx)

/-- A frame holds of every larger range. -/
theorem MemOutside.mono (hlo : lo' ≤ lo) (hhi : hi ≤ hi') (h : MemOutside lo hi s t) : MemOutside lo' hi' s t :=
  fun x hx => h x (by omega)

theorem stackBase_setMem : stackBase (s.setMem m) = stackBase s := rfl

theorem memOutside_pushed {v : Word} : MemOutside (stackBase s) (stackBase s + 8 + 4 * (stackCount s).toNat) s
    (s.setMem (pushedMem s.mem (stackBase s) (stackCount s).toNat v)) :=
  fun _ => pushedMem_read_out

theorem memOutside_popped {v : Word} : MemOutside (stackBase s) (stackBase s + 4 + 4 * ((stackCount s).toNat - 1)) s
    ((s.setMem (poppedMem s.mem (stackBase s) (stackCount s).toNat)).setReg r v) :=
  fun _ hx => by rw [State.setReg_mem]; exact poppedMem_read_out hx

/-- A run of pushes stores into the region it leaves when none of them faults: one entry for each register. -/
theorem pushAll_memOutside (h : pushAll rs s = .next t) :
    MemOutside (stackBase s) (stackBase s + 4 + 4 * ((stackCount s).toNat + rs.length)) s t := by
  induction rs generalizing s with
  | nil => cases h; exact memOutside_of_mem_eq rfl
  | cons r rs ih =>
    by_cases hc : CanPush s
    · rw [pushAll_cons_ok hc] at h
      have hn := stackCount_pushed (v := s.reg r) hc
      obtain ⟨-, -, hpos, -⟩ := hc
      have ih := ih h
      rw [stackBase_setMem, hn] at ih
      rw [List.length_cons]
      exact (memOutside_pushed.mono le_rfl (by omega)).trans (ih.mono le_rfl (by omega))
    · obtain ⟨f, hf⟩ := pushAll_cons_error (r := r) (rs := rs) hc
      rw [hf] at h
      cases h
      exact memOutside_of_mem_eq rfl

/-- A run of pops that leaves SP alone stores into the region of its first pop, the largest: the count only falls. -/
theorem popAll_memOutside (hsp : .sp ∉ rs) (h : popAll rs s = .next t) :
    MemOutside (stackBase s) (stackBase s + 4 + 4 * ((stackCount s).toNat - 1)) s t := by
  induction rs generalizing s with
  | nil => cases h; exact memOutside_of_mem_eq rfl
  | cons r rs ih =>
    obtain ⟨hr, hrs⟩ : r ≠ .sp ∧ .sp ∉ rs := by simpa [eq_comm] using hsp
    by_cases hc : CanPop s
    · rw [popAll_cons_ok hc] at h
      have ih := ih hrs h
      rw [stackBase_popped hr, stackCount_popped hr hc] at ih
      exact memOutside_popped.trans (ih.mono le_rfl (by omega))
    · obtain ⟨f, hf⟩ := popAll_cons_error (r := r) (rs := rs) hc
      rw [hf] at h
      cases h
      exact memOutside_of_mem_eq rfl

/-- Settles O50: APUSH and APOP by their runs, every other instruction by the one store it can make. -/
theorem memoryFrame : Obligations.MemoryFrame := by
  intro i s t h
  by_cases hi : i = .apush
  · subst hi
    exact (pushAll_memOutside h).mono le_rfl (by simp only [storedRange, List.length_cons, List.length_nil]; omega)
  by_cases hi' : i = .apop
  · subst hi'
    exact popAll_memOutside (by decide) h
  rcases exec_cases hi hi' h with rfl | ⟨-, rfl⟩ | ⟨r, -, w, rfl⟩ | ⟨a, b, hr, -, rfl⟩ | ⟨w, -, hr, rfl⟩ |
    ⟨r, -, -, hr, rfl⟩ | ⟨f, rfl⟩
  · exact memOutside_of_mem_eq rfl
  · exact memOutside_of_mem_eq rfl
  · exact memOutside_of_mem_eq (by simp)
  · rw [hr]
    exact fun x hx => Memory.read_write_ne (by omega)
  · rw [hr]
    exact memOutside_pushed
  · rw [hr]
    exact memOutside_popped
  · exact memOutside_of_mem_eq rfl

end Sys2Proof.Machine
end

section
/-! The decoder and the encoder are inverse on the well-formed instructions; what the opcode byte and the flag byte fix of a
decode, its length and its faults; and which flag fields play no part. -/

namespace Sys2Proof

open Machine

variable {N : Numbering} {op ff ff' : Byte} {bs rest : List Byte} {i : Instr} {r : Reg}

/-! ## The round trip -/

/-- Every well-formed instruction is decoded back from its bytes: the laws of the single instructions, put together. -/
theorem decodeWith_encodeWith (h : i.wellFormedWith N = true) : decodeWith N (encodeWith N i ++ rest) = .ok (i, rest) := by
  cases i with
  | nop op => exact Laws.RoundTrip.nop op N rest h
  | mov ff dst src => exact Laws.RoundTrip.mov ff dst src N rest h
  | add ff dst val => exact Laws.RoundTrip.add ff dst val N rest h
  | sub ff dst val => exact Laws.RoundTrip.sub ff dst val N rest h
  | mul ff dst val => exact Laws.RoundTrip.mul ff dst val N rest h
  | div ff dst val => exact Laws.RoundTrip.div ff dst val N rest h
  | push ff reg => exact Laws.RoundTrip.push ff reg N rest h
  | pop ff reg => exact Laws.RoundTrip.pop ff reg N rest h
  | apush => exact Laws.RoundTrip.apush N rest h
  | apop => exact Laws.RoundTrip.apop N rest h
  | jmp ff dest => exact Laws.RoundTrip.jmp ff dest N rest h
  | jez ff dest test => exact Laws.RoundTrip.jez ff dest test N rest h
  | jnz ff dest test => exact Laws.RoundTrip.jnz ff dest test N rest h
  | jlz ff dest test => exact Laws.RoundTrip.jlz ff dest test N rest h
  | jgz ff dest test => exact Laws.RoundTrip.jgz ff dest test N rest h
  | hwid => exact Laws.RoundTrip.hwid N rest h
  | hlt => exact Laws.RoundTrip.hlt N rest h
  | int ff => exact Laws.RoundTrip.int ff N rest h

/-- Settles O1, at the machine's numbering. -/
theorem decodeOfEncodeIsTheInstruction : Obligations.DecodeOfEncodeIsTheInstruction :=
  fun _ _ => decodeWith_encodeWith

/-- Settles O2: what each layout read, at the machine's numbering. -/
theorem decodedBytesAreTheEncoding : Obligations.DecodedBytesAreTheEncoding :=
  fun _ _ _ => decodeWith_eq_ok

/-! ## The length (R69) -/

theorem field_ne_zero {o : Operand} {k : Nat} (h : tagAt ff k = o.tag) : field ff k ≠ 0 := by
  rw [Ne, ← tagAt_eq_reserved, h]
  exact o.tag_ne_reserved

theorem field_eq_one_or_two {o : Operand} {k : Nat} (h : tagAt ff k = o.tag) (ho : o.tag ≠ .memoryValue) :
    field ff k = 1 ∨ field ff k = 2 := by
  rw [← tagAt_eq_constant, ← tagAt_eq_register, h]
  cases o with
  | const v => exact .inl rfl
  | reg r => exact .inr rfl
  | mem a => exact absurd rfl ho

/-- The table has the length of every well-formed instruction, at its flag byte where it has one. -/
theorem tableLen_mnemonic (h : i.wellFormedWith N = true) (hff : ∀ g ∈ i.flagByte, ff = g) :
    tableLen i.mnemonic ff = some i.len := by
  cases i with
  | nop | apush | apop | hwid | hlt | push | pop | int => rfl
  | mov g d v =>
    obtain rfl := hff g rfl
    obtain ⟨⟨hd, hv⟩, hne⟩ : (tagAt ff 0 = d.tag ∧ tagAt ff 1 = v.tag) ∧ d.tag ≠ .memoryValue := by
      simpa [Instr.wellFormedWith] using h
    exact (if_pos ⟨field_eq_one_or_two hd hne, field_ne_zero hv⟩).trans (by rw [tagLen_field hd, tagLen_field hv]; rfl)
  | add g r v | sub g r v | mul g r v | div g r v =>
    obtain rfl := hff g rfl
    have hv : tagAt ff 1 = v.tag := by simpa [Instr.wellFormedWith] using h
    exact (if_pos (field_ne_zero hv)).trans (by rw [tagLen_field hv]; rfl)
  | jmp g d =>
    obtain rfl := hff g rfl
    have hd : tagAt ff 0 = d.tag := by simpa [Instr.wellFormedWith] using h
    exact (if_pos (field_ne_zero hd)).trans (by rw [tagLen_field hd]; rfl)
  | jez g d v | jnz g d v | jlz g d v | jgz g d v =>
    obtain rfl := hff g rfl
    obtain ⟨hd, hv⟩ : tagAt ff 0 = d.tag ∧ tagAt ff 1 = v.tag := by simpa [Instr.wellFormedWith] using h
    exact (if_pos ⟨field_ne_zero hd, field_ne_zero hv⟩).trans (by rw [tagLen_field hd, tagLen_field hv]; rfl)

/-- A decode that succeeds has the table's length, and consumed that many bytes. -/
theorem tableLen_of_decodeWith_eq_ok (h : decodeWith N (op :: ff :: bs) = .ok (i, rest)) :
    tableLen ((N.mnemonicOf op).getD .nop) ff = some i.len ∧ (op :: ff :: bs).length = i.len + rest.length := by
  obtain ⟨hw, hb⟩ := decodeWith_eq_ok h
  refine ⟨?table, by rw [hb, List.length_append, length_encodeWith]⟩
  rw [encodeWith_eq_append, List.cons_append, List.cons.injEq] at hb
  obtain ⟨rfl, hb⟩ := hb
  rw [mnemonicOf_opcodeByte hw]
  refine tableLen_mnemonic hw fun g hg => ?_
  rw [hg] at hb
  exact (List.cons.inj hb).1

/-- Settles O4: a decode that succeeds has a length in the table, so where the table has none there is a fault. -/
theorem lengthFixedByOpcodeAndFlag : Obligations.LengthFixedByOpcodeAndFlag := by
  intro op ff bs
  cases ht : tableLen ((numbering.mnemonicOf op).getD .nop) ff with
  | none =>
    show ∃ f, decode (op :: ff :: bs) = .error f
    cases hd : decode (op :: ff :: bs) with
    | error f => exact ⟨f, rfl⟩
    | ok p => rw [(tableLen_of_decodeWith_eq_ok hd).1] at ht; cases ht
  | some n =>
    intro i rest h
    obtain ⟨hn, hlen⟩ := tableLen_of_decodeWith_eq_ok h
    rw [ht, Option.some.injEq] at hn
    rwa [hn]

/-! ## The layouts behind a flag byte -/

/-- MOV is laid out as a conditional jump is, where its destination is allowed (R124). -/
theorem decodeMov_eq_decodeCond (h : tagAt ff 0 ≠ .memoryValue) :
    decodeMov N (ff :: bs) = decodeCond N .mov (ff :: bs) := by
  cases ht : tagAt ff 0 with
  | reserved => simp [decodeMov, decodeCond, ht, readTyped_reserved]
  | constant | register => simp [decodeMov, decodeCond, ht]
  | memoryValue => exact absurd ht h

theorem decodeMov_memoryValue (h : tagAt ff 0 = .memoryValue) :
    decodeMov N (ff :: bs) = .error .invalidArgumentType := by
  simp [decodeMov, h]

/-! ## Flag fields that are not consulted (R68) -/

/-- A map over a sequence of two reads is a map over the second. -/
theorem bind_eq_map_bind {α β γ : Type} {x : Except FaultInfo α} {k : α → Except FaultInfo β}
    {k' : α → Except FaultInfo γ} {g : β → γ} (h : ∀ a, k' a = (k a).map g) : (x >>= k') = (x >>= k).map g := by
  cases x with
  | error f => rfl
  | ok a => exact h a

theorem decodeArith_withFlag {mk : Byte → Reg → Operand → Instr} (hmk : ∀ r v, withFlag ff' (mk ff r v) = mk ff' r v)
    (h : field ff 1 = field ff' 1) :
    decodeArith N mk (ff' :: bs) = (decodeArith N mk (ff :: bs)).map fun p => (withFlag ff' p.1, p.2) := by
  refine bind_eq_map_bind (x := readRaw N bs) fun p => ?_
  show (readTyped N ff' 1 p.2 >>= _) = Except.map _ (readTyped N ff 1 p.2 >>= _)
  rw [readTyped_congr h]
  exact bind_eq_map_bind fun q => congrArg (fun j => Except.ok (j, q.2)) (hmk p.1 q.1).symm

theorem decodeCond_withFlag {mk : Byte → Operand → Operand → Instr}
    (hmk : ∀ d v, withFlag ff' (mk ff d v) = mk ff' d v) (h : ∀ k ∈ [0, 1], field ff k = field ff' k) :
    decodeCond N mk (ff' :: bs) = (decodeCond N mk (ff :: bs)).map fun p => (withFlag ff' p.1, p.2) := by
  show (readTyped N ff' 0 bs >>= _) = Except.map _ (readTyped N ff 0 bs >>= _)
  rw [readTyped_congr (h 0 (by decide))]
  refine bind_eq_map_bind fun p => ?_
  show (readTyped N ff' 1 p.2 >>= _) = Except.map _ (readTyped N ff 1 p.2 >>= _)
  rw [readTyped_congr (h 1 (by decide))]
  exact bind_eq_map_bind fun q => congrArg (fun j => Except.ok (j, q.2)) (hmk p.1 q.1).symm

theorem decodeMov_withFlag (h : ∀ k ∈ [0, 1], field ff k = field ff' k) :
    decodeMov N (ff' :: bs) = (decodeMov N (ff :: bs)).map fun p => (withFlag ff' p.1, p.2) := by
  have h0 : tagAt ff 0 = tagAt ff' 0 := tagAt_congr (h 0 (by decide))
  by_cases hm : tagAt ff 0 = .memoryValue
  · rw [decodeMov_memoryValue hm, decodeMov_memoryValue (h0 ▸ hm)]
    rfl
  · rw [decodeMov_eq_decodeCond hm, decodeMov_eq_decodeCond (h0 ▸ hm), decodeCond_withFlag (fun _ _ => rfl) h]

theorem decodeStack_withFlag {mk : Byte → Reg → Instr} (hmk : ∀ r, withFlag ff' (mk ff r) = mk ff' r) :
    decodeStack N mk (ff' :: bs) = (decodeStack N mk (ff :: bs)).map fun p => (withFlag ff' p.1, p.2) :=
  bind_eq_map_bind (x := readRaw N bs) fun p => congrArg (fun j => Except.ok (j, p.2)) (hmk p.1).symm

theorem decodeJmp_withFlag (h : field ff 0 = field ff' 0) :
    decodeJmp N (ff' :: bs) = (decodeJmp N (ff :: bs)).map fun p => (withFlag ff' p.1, p.2) := by
  show (readTyped N ff' 0 bs >>= _) = Except.map _ (readTyped N ff 0 bs >>= _)
  rw [readTyped_congr h]
  exact bind_eq_map_bind fun _ => rfl

/-- Settles O6, layout by layout. -/
theorem unconsultedFlagFieldsAreIgnored : Obligations.UnconsultedFlagFieldsAreIgnored := by
  intro m ff ff' bs hargc h
  simp only [decode, decodeWith_cons, Numbering.mnemonicOf_opc, Option.getD_some]
  cases m with
  | nop | apush | apop | hwid | hlt => exact absurd rfl hargc
  | mov => exact decodeMov_withFlag h
  | add | sub | mul | div => exact decodeArith_withFlag (fun _ _ => rfl) (h 1 (by decide))
  | push | pop => exact decodeStack_withFlag fun _ => rfl
  | jmp => exact decodeJmp_withFlag (h 0 (by decide))
  | jez | jnz | jlz | jgz => exact decodeCond_withFlag (fun _ _ => rfl) h
  | int => rfl

/-! ## The reserved tag (R67) -/

theorem decodeCond_reserved_first {mk : Byte → Operand → Operand → Instr} (h : tagAt ff 0 = .reserved) :
    decodeCond N mk (ff :: bs) = .error .invalidOperandType := by
  simp [decodeCond, readTyped_reserved h]

theorem decodeCond_reserved_second {mk : Byte → Operand → Operand → Instr} {o : Operand} (h : tagAt ff 1 = .reserved)
    (ho : tagAt ff 0 = o.tag) : decodeCond N mk (ff :: (o.bytes N ++ bs)) = .error .invalidOperandType := by
  simp [decodeCond, readTyped_bytes ho, readTyped_reserved h]

theorem decodeArith_reserved {mk : Byte → Reg → Operand → Instr} (h : tagAt ff 1 = .reserved) :
    decodeArith N mk (ff :: N.rid r :: bs) = .error .invalidOperandType := by
  simp [decodeArith, readTyped_reserved h]

theorem decodeJmp_reserved (h : tagAt ff 0 = .reserved) : decodeJmp N (ff :: bs) = .error .invalidOperandType := by
  simp [decodeJmp, readTyped_reserved h]

/-- Settles O7: the typed read of the field refuses it, whatever was read before. -/
theorem reservedTagFaults : Obligations.ReservedTagFaults := by
  intro ff bs
  simp only [← tagAt_eq_reserved, decode, decodeWith_cons, Numbering.mnemonicOf_opc, Option.getD_some,
    List.forall_mem_cons, List.not_mem_nil, false_imp_iff, implies_true, and_true]
  refine ⟨fun h => ?first, fun h => ⟨fun r => ?arith, fun o ho => ?cond, fun o ho hne => ?mov⟩⟩
  case first =>
    have hmov : tagAt ff 0 ≠ .memoryValue := by simp [h]
    have hcond {mk} : decodeCond numbering mk (ff :: bs) = .error .invalidOperandType := decodeCond_reserved_first h
    exact ⟨(decodeMov_eq_decodeCond hmov).trans hcond, decodeJmp_reserved h, hcond, hcond, hcond, hcond⟩
  case arith =>
    have harith {mk} : decodeArith numbering mk (ff :: numbering.rid r :: bs) = .error .invalidOperandType :=
      decodeArith_reserved h
    exact ⟨harith, harith, harith, harith⟩
  case cond =>
    have hcond {mk} : decodeCond numbering mk (ff :: (o.bytes numbering ++ bs)) = .error .invalidOperandType :=
      decodeCond_reserved_second h ho
    exact ⟨hcond, hcond, hcond, hcond⟩
  case mov => exact (decodeMov_eq_decodeCond (ho ▸ hne)).trans (decodeCond_reserved_second h ho)

/-! ## Bytes that are no mnemonic's code (R64) -/

theorem decodeWith_unknown (h : ∀ m, N.opc m ≠ op) : decodeWith N (op :: bs) = .ok (.nop op, bs) := by
  rw [decodeWith_cons, Numbering.mnemonicOf_eq_none.2 h]
  rfl

/-- Settles O5: the NOP keeps the byte, which `exec` does not look at. -/
theorem unknownOpcodeIsNop : Obligations.UnknownOpcodeIsNop :=
  fun b _ h => ⟨.nop b, decodeWith_unknown h, rfl, rfl, fun _ => rfl⟩

end Sys2Proof
end

section
/-! What the assembler emits: the flag byte field by field, and that the decoder reads an emitted instruction back. -/

namespace Sys2Proof.Machine

variable {N : Numbering} {P : AsmParams} {offsets : List (List Char × Nat)} {m : Mnemonic} {ff : Byte}
  {i : Instr}
  {tags : List Tag} {k : Nat} {o : AsmOperand} {o' : Operand} {ops : List AsmOperand} {os : List Operand} {bytes : List Byte}

/-! ## The flag byte (R66, R85) -/

/-- Above the last of codes packed side by side stand the ones before it. -/
theorem extractLsb'_append_code {n j : Nat} {x : BitVec n} {c : BitVec 2} :
    (x ++ c).extractLsb' (j + 2) 2 = x.extractLsb' j 2 :=
  BitVec.extractLsb'_append_eq_of_le (Nat.le_add_left 2 j)

theorem field_flagByte (hk : k < 4) : field (flagByte tags) k = (tags.getD k .reserved).code :=
  match k, hk with
  | 3, _ => BitVec.extractLsb'_append_eq_right
  | 2, _ => extractLsb'_append_code.trans BitVec.extractLsb'_append_eq_right
  | 1, _ => extractLsb'_append_code.trans (extractLsb'_append_code.trans BitVec.extractLsb'_append_eq_right)
  | 0, _ => extractLsb'_append_code.trans (extractLsb'_append_code.trans
      (extractLsb'_append_code.trans BitVec.extractLsb'_eq_self))

/-- Settles O57: the fields of the packed codes; R88's ten values are computed. -/
theorem flagBytePacksTheTags : Obligations.FlagBytePacksTheTags :=
  ⟨fun _ _ => field_flagByte, by decide⟩

@[simp] theorem tagOf_code {t : Tag} : tagOf t.code = t := by cases t <;> rfl

theorem tagAt_flagByte (hk : k < 4) : tagAt (flagByte tags) k = tags.getD k .reserved := by
  rw [tagAt, field_flagByte hk, tagOf_code]

/-! ## INT (R72) -/

/-- Settles O28: the payload is emitted behind the flag byte, and INT's layout ends there. -/
theorem intLeavesItsPayload : Obligations.IntLeavesItsPayload :=
  fun P n _ => ⟨flagByte [.constant], be32Bytes n, rfl, rfl, fun rest => by simp [decodeWith_cons, decodeInt]⟩

/-! ## Emission (R85) -/

theorem resolve_tag (h : o.resolve offsets = .ok o') : o'.tag = o.tag := by
  cases o with
  | reg r => cases h; rfl
  | const v | mem v =>
    simp only [AsmOperand.resolve] at h
    cases hv : v.resolve offsets <;> rw [hv] at h <;> cases h
    rfl

theorem mapM_resolve_tag (h : ops.mapM (AsmOperand.resolve offsets) = .ok os) :
    os.map Operand.tag = ops.map AsmOperand.tag := by
  induction ops generalizing os with
  | nil => cases h; rfl
  | cons o ops ih =>
    rw [List.mapM_cons] at h
    cases ho : o.resolve offsets with
    | error e => rw [ho] at h; cases h
    | ok o' =>
      cases hos : ops.mapM (AsmOperand.resolve offsets) with
      | error e => rw [ho, hos] at h; cases h
      | ok os' =>
        rw [ho, hos] at h
        cases h
        simp [resolve_tag ho, ih hos]

/-- The payloads are those of the resolved operands. -/
theorem mapM_payload : ops.mapM (AsmOperand.payload P offsets) =
    (ops.mapM (AsmOperand.resolve offsets)).map (List.map (Operand.bytes P.numbering)) := by
  induction ops with
  | nil => rfl
  | cons o ops ih =>
    rw [List.mapM_cons, List.mapM_cons, ih, AsmOperand.payload]
    cases o.resolve offsets with
    | error e => rfl
    | ok o' => cases ops.mapM (AsmOperand.resolve offsets) <;> rfl

/-- What was emitted, when an emission succeeds: the operands resolved, in the layout of all encodings. -/
theorem emit_eq_ok (h : AsmLine.emit P offsets (.instr m ops) = .ok bytes) :
    ∃ os, ops.mapM (AsmOperand.resolve offsets) = .ok os ∧
      bytes = P.numbering.opc m :: ((if argc m = 0 then none else some (flagByte (ops.map AsmOperand.tag))).toList ++
        os.flatMap (Operand.bytes P.numbering)) := by
  rw [AsmLine.emit, mapM_payload] at h
  cases hos : ops.mapM (AsmOperand.resolve offsets) with
  | error e => rw [hos] at h; cases h
  | ok os =>
    rw [hos] at h
    cases h
    refine ⟨os, rfl, ?_⟩
    rw [apply_ite Option.toList, List.flatMap_def]
    rfl

/-! ## The instruction of a mnemonic and its operands -/

theorem exists_reg {o : Operand} (h : o.tag = .register) : ∃ r, o = .reg r := by
  cases o with
  | reg r => exact ⟨r, rfl⟩
  | const v | mem a => cases h

/-- A mnemonic and as many operands as its arguments make an instruction, outside INT, whose operand is no part of it
(R72), and where the raw register is one (R63, R99). -/
theorem exists_instr (hlen : os.length = argc m) (hint : m ≠ .int)
    (hraw : m ∈ [Mnemonic.add, .sub, .mul, .div, .push, .pop] → ∀ t ∈ (os.map Operand.tag).head?, t = .register) :
    ∃ i : Instr, i.opcodeByte N = N.opc m ∧ i.mnemonic = m ∧ i.operands = os ∧
      i.flagByte = if argc m = 0 then none else some ff := by
  match os, hlen with
  | [], hlen =>
    cases m with
    | nop => exact ⟨.nop (N.opc .nop), rfl, rfl, rfl, rfl⟩
    | apush => exact ⟨.apush, rfl, rfl, rfl, rfl⟩
    | apop => exact ⟨.apop, rfl, rfl, rfl, rfl⟩
    | hwid => exact ⟨.hwid, rfl, rfl, rfl, rfl⟩
    | hlt => exact ⟨.hlt, rfl, rfl, rfl, rfl⟩
    | mov | add | sub | mul | div | push | pop | jmp | jez | jnz | jlz | jgz | int => cases hlen
  | [d], hlen =>
    have hreg h : ∃ r, d = .reg r := exists_reg (hraw h _ rfl)
    cases m with
    | push =>
      obtain ⟨r, rfl⟩ := hreg (by decide)
      exact ⟨.push ff r, rfl, rfl, rfl, rfl⟩
    | pop =>
      obtain ⟨r, rfl⟩ := hreg (by decide)
      exact ⟨.pop ff r, rfl, rfl, rfl, rfl⟩
    | jmp => exact ⟨.jmp ff d, rfl, rfl, rfl, rfl⟩
    | int => exact absurd rfl hint
    | nop | mov | add | sub | mul | div | apush | apop | jez | jnz | jlz | jgz | hwid | hlt => cases hlen
  | [d, v], hlen =>
    have hreg h : ∃ r, d = .reg r := exists_reg (hraw h _ rfl)
    cases m with
    | mov => exact ⟨.mov ff d v, rfl, rfl, rfl, rfl⟩
    | add =>
      obtain ⟨r, rfl⟩ := hreg (by decide)
      exact ⟨.add ff r v, rfl, rfl, rfl, rfl⟩
    | sub =>
      obtain ⟨r, rfl⟩ := hreg (by decide)
      exact ⟨.sub ff r v, rfl, rfl, rfl, rfl⟩
    | mul =>
      obtain ⟨r, rfl⟩ := hreg (by decide)
      exact ⟨.mul ff r v, rfl, rfl, rfl, rfl⟩
    | div =>
      obtain ⟨r, rfl⟩ := hreg (by decide)
      exact ⟨.div ff r v, rfl, rfl, rfl, rfl⟩
    | jez => exact ⟨.jez ff d v, rfl, rfl, rfl, rfl⟩
    | jnz => exact ⟨.jnz ff d v, rfl, rfl, rfl, rfl⟩
    | jlz => exact ⟨.jlz ff d v, rfl, rfl, rfl, rfl⟩
    | jgz => exact ⟨.jgz ff d v, rfl, rfl, rfl, rfl⟩
    | nop | push | pop | apush | apop | jmp | hwid | hlt | int => cases hlen
  | _ :: _ :: _ :: _, hlen => cases m <;> cases hlen

/-- An instruction with its mnemonic's own code, whose flag byte has the tag of every operand, is well-formed, but for the
destination MOV does not allow (R124). -/
theorem wellFormedWith_of_tags (hop : i.opcodeByte N = N.opc i.mnemonic)
    (hmov : i.mnemonic = .mov → ∀ t ∈ (i.operands.map Operand.tag).head?, t ≠ .memoryValue)
    (htag : ∀ g ∈ i.flagByte, ∀ k < i.operands.length, tagAt g k = (i.operands.map Operand.tag).getD k .reserved) :
    i.wellFormedWith N = true := by
  cases i with
  | nop op =>
    obtain rfl : op = N.opc .nop := hop
    exact wellFormedWith_nop.2 (by simp)
  | push | pop | apush | apop | hwid | hlt | int => rfl
  | mov g d v =>
    have hd : tagAt g 0 = d.tag := htag g rfl 0 Nat.two_pos
    have hv : tagAt g 1 = v.tag := htag g rfl 1 Nat.one_lt_two
    simp [Instr.wellFormedWith, hd, hv, hmov rfl d.tag rfl]
  | add g r v | sub g r v | mul g r v | div g r v =>
    have hv : tagAt g 1 = v.tag := htag g rfl 1 Nat.one_lt_two
    simp [Instr.wellFormedWith, hv]
  | jmp g d =>
    have hd : tagAt g 0 = d.tag := htag g rfl 0 Nat.one_pos
    simp [Instr.wellFormedWith, hd]
  | jez g d v | jnz g d v | jlz g d v | jgz g d v =>
    have hd : tagAt g 0 = d.tag := htag g rfl 0 Nat.two_pos
    have hv : tagAt g 1 = v.tag := htag g rfl 1 Nat.one_lt_two
    simp [Instr.wellFormedWith, hd, hv]

theorem argc_le_two : argc m ≤ 2 := by cases m <;> decide

/-- Settles O58: the emitted bytes are the encoding of the instruction that the mnemonic and the resolved operands make. -/
theorem emittedInstructionDecodesInStep : Obligations.EmittedInstructionDecodesInStep := by
  intro P offsets m ops bytes rest h hlen hint hmov hraw
  obtain ⟨os, hos, hbytes⟩ := emit_eq_ok h
  have htags : os.map Operand.tag = ops.map AsmOperand.tag := mapM_resolve_tag hos
  have hlen' : os.length = argc m := by rw [← hlen, ← List.length_map Operand.tag, htags, List.length_map]
  obtain ⟨i, hop, rfl, rfl, hff⟩ := exists_instr (N := P.numbering) (ff := flagByte (ops.map AsmOperand.tag)) hlen' hint
    (by simpa [htags] using hraw)
  have hw : i.wellFormedWith P.numbering = true := by
    refine wellFormedWith_of_tags hop (by simpa [htags] using hmov) fun g hg k hk => ?_
    obtain ⟨-, rfl⟩ : argc i.mnemonic ≠ 0 ∧ flagByte (ops.map AsmOperand.tag) = g := by simpa [hff] using hg
    rw [tagAt_flagByte (by have := argc_le_two (m := i.mnemonic); omega), htags]
  have henc : encodeWith P.numbering i = bytes := by rw [encodeWith_eq_append, hop, hff, hbytes]
  rw [← henc]
  exact ⟨i, decodeWith_encodeWith hw, rfl, hos, hff, (length_encodeWith i).symm⟩

end Sys2Proof.Machine
end

section
/-! Where a decode meets its fault: a read that fails ends the decode, whatever was read before it; what a reader does when
it is given more bytes, so that a decode of cut bytes fails; and that a decode depends on the instruction's bytes
alone. -/

namespace Sys2Proof

variable {N : Numbering} {b ff : Byte} {k : Nat} {bs : List Byte} {i : Instr} {o : Operand} {r : Reg} {f : FaultInfo}

/-! ## A read that fails ends the decode (R96) -/

section Errors

variable {mk : Byte → Reg → Operand → Instr} {mkCond : Byte → Operand → Operand → Instr} {mkStack : Byte → Reg → Instr}

theorem decodeArith_error_dst (h : readRaw N bs = .error f) : decodeArith N mk (ff :: bs) = .error f := by
  simp [decodeArith, h]

theorem decodeArith_error_val (h : readTyped N ff 1 bs = .error f) :
    decodeArith N mk (ff :: N.rid r :: bs) = .error f := by
  simp [decodeArith, h]

theorem decodeStack_error (h : readRaw N bs = .error f) : decodeStack N mkStack (ff :: bs) = .error f := by
  simp [decodeStack, h]

theorem decodeJmp_error (h : readTyped N ff 0 bs = .error f) : decodeJmp N (ff :: bs) = .error f := by
  simp [decodeJmp, h]

theorem decodeCond_error_first (h : readTyped N ff 0 bs = .error f) : decodeCond N mkCond (ff :: bs) = .error f := by
  simp [decodeCond, h]

theorem decodeCond_error_second (ho : tagAt ff 0 = o.tag) (h : readTyped N ff 1 bs = .error f) :
    decodeCond N mkCond (ff :: (o.bytes N ++ bs)) = .error f := by
  simp [decodeCond, readTyped_bytes ho, h]

end Errors

/-! ## Bytes that are no register's id (R97, D14) -/

theorem readTyped_invalid (ht : tagAt ff k = .register) (h : ∀ r, N.rid r ≠ b) :
    readTyped N ff k (b :: bs) = .error .invalidRegister := by
  simp [readTyped, ht, readRaw_invalid h]

/-- Settles O8: the raw or typed read that meets the byte refuses it, and that read ends the decode. -/
theorem invalidRegisterIdFaults : Obligations.InvalidRegisterIdFaults := by
  intro b ff bs hb
  have hraw : readRaw numbering (b :: bs) = .error .invalidRegister := readRaw_invalid hb
  simp only [← tagAt_eq_register, decode, decodeWith_cons, Numbering.mnemonicOf_opc, Option.getD_some,
    List.forall_mem_cons, List.not_mem_nil, false_imp_iff, implies_true, and_true]
  refine ⟨?raw, fun h => ?first, fun h => ?second⟩
  case raw =>
    have harith {mk} : decodeArith numbering mk (ff :: b :: bs) = .error .invalidRegister := decodeArith_error_dst hraw
    exact ⟨harith, harith, harith, harith, decodeStack_error hraw, decodeStack_error hraw⟩
  case first =>
    have htyped : readTyped numbering ff 0 (b :: bs) = .error .invalidRegister := readTyped_invalid h hb
    have hcond {mk} : decodeCond numbering mk (ff :: b :: bs) = .error .invalidRegister := decodeCond_error_first htyped
    exact ⟨(decodeMov_eq_decodeCond (by simp [h])).trans hcond, decodeJmp_error htyped, hcond, hcond, hcond, hcond⟩
  case second =>
    have htyped : readTyped numbering ff 1 (b :: bs) = .error .invalidRegister := readTyped_invalid h hb
    have harith {mk r} : decodeArith numbering mk (ff :: numbering.rid r :: b :: bs) = .error .invalidRegister :=
      decodeArith_error_val htyped
    have hcond {mk} (o : Operand) (ho : tagAt ff 0 = o.tag) :
        decodeCond numbering mk (ff :: (o.bytes numbering ++ b :: bs)) = .error .invalidRegister :=
      decodeCond_error_second ho htyped
    exact ⟨fun _ => ⟨harith, harith, harith, harith⟩, fun o ho => ⟨hcond o ho, hcond o ho, hcond o ho, hcond o ho⟩,
      fun o ho hne => (decodeMov_eq_decodeCond (ho ▸ hne)).trans (hcond o ho)⟩

/-! ## Readers that are given more bytes -/

/-- A reader runs out of bytes, or its answer is the same when more bytes follow, which it then leaves over. -/
def AppendStable {α : Type} (read : List Byte → Except FaultInfo (α × List Byte)) : Prop :=
  ∀ bs more, read bs = .error .outOfBounds ∨ read (bs ++ more) = (read bs).map fun p => (p.1, p.2 ++ more)

section AppendStable

variable {α β : Type} {read : List Byte → Except FaultInfo (α × List Byte)}

theorem appendStable_ok (a : α) : AppendStable fun bs => .ok (a, bs) := fun _ _ => .inr rfl

theorem appendStable_error : AppendStable fun _ => (.error f : Except FaultInfo (α × List Byte)) :=
  fun _ _ => .inr rfl

/-- One read after another: the second is given the bytes that the first left over. -/
theorem AppendStable.bind {cont : α × List Byte → Except FaultInfo (β × List Byte)} (h : AppendStable read)
    (hcont : ∀ a, AppendStable fun bs => cont (a, bs)) : AppendStable fun bs => read bs >>= cont := by
  intro bs more
  rcases h bs more with h | h
  · simp [h]
  · show (read bs >>= cont) = _ ∨ (read (bs ++ more) >>= cont) = (read bs >>= cont).map _
    rw [h]
    cases read bs with
    | error f => exact .inr rfl
    | ok p => exact hcont p.1 p.2 more

theorem appendStable_next1 : AppendStable next1
  | [], _ => .inl rfl
  | _ :: _, _ => .inr rfl

theorem appendStable_next4 : AppendStable next4
  | [], _ | [_], _ | [_, _], _ | [_, _, _], _ => .inl rfl
  | _ :: _ :: _ :: _ :: _, _ => .inr rfl

theorem appendStable_readRaw : AppendStable (readRaw N) := by
  refine appendStable_next1.bind fun b => ?_
  cases h : N.regOf b with
  | none => simpa [h] using appendStable_error
  | some r => simpa [h] using appendStable_ok r

theorem appendStable_readTyped : AppendStable (readTyped N ff k) := by
  unfold readTyped
  cases tagAt ff k with
  | reserved => exact appendStable_error
  | constant | memoryValue => exact appendStable_next4.bind fun v => appendStable_ok _
  | register => exact appendStable_readRaw.bind fun r => appendStable_ok _

theorem appendStable_decodeArith {mk : Byte → Reg → Operand → Instr} : AppendStable (decodeArith N mk) :=
  appendStable_next1.bind fun _ => appendStable_readRaw.bind fun _ => appendStable_readTyped.bind fun _ =>
    appendStable_ok _

theorem appendStable_decodeStack {mk : Byte → Reg → Instr} : AppendStable (decodeStack N mk) :=
  appendStable_next1.bind fun _ => appendStable_readRaw.bind fun _ => appendStable_ok _

theorem appendStable_decodeJmp : AppendStable (decodeJmp N) :=
  appendStable_next1.bind fun _ => appendStable_readTyped.bind fun _ => appendStable_ok _

theorem appendStable_decodeCond {mk : Byte → Operand → Operand → Instr} : AppendStable (decodeCond N mk) :=
  appendStable_next1.bind fun _ => appendStable_readTyped.bind fun _ => appendStable_readTyped.bind fun _ =>
    appendStable_ok _

theorem appendStable_decodeMov : AppendStable (decodeMov N)
  | [], _ => .inl rfl
  | ff :: bs, more => by
    rw [List.cons_append]
    by_cases h : tagAt ff 0 = .memoryValue
    · rw [decodeMov_memoryValue h, decodeMov_memoryValue h]
      exact .inr rfl
    · rw [decodeMov_eq_decodeCond h, decodeMov_eq_decodeCond h]
      exact appendStable_decodeCond (ff :: bs) more

theorem appendStable_decodeInt : AppendStable decodeInt :=
  appendStable_next1.bind fun _ => appendStable_ok _

theorem appendStable_decodeWith : AppendStable (decodeWith N) := by
  refine appendStable_next1.bind fun op => ?_
  cases h : (N.mnemonicOf op).getD .nop <;> simp only [h]
  case nop | apush | apop | hwid | hlt => exact appendStable_ok _
  case mov => exact appendStable_decodeMov
  case add | sub | mul | div => exact appendStable_decodeArith
  case push | pop => exact appendStable_decodeStack
  case jmp => exact appendStable_decodeJmp
  case jez | jnz | jlz | jgz => exact appendStable_decodeCond
  case int => exact appendStable_decodeInt

end AppendStable

/-- A decoder that answered before the cut would answer the same of the whole encoding, and leave bytes of it over. -/
theorem decodeWith_take_encodeWith {n : Nat} (h : i.wellFormedWith N = true) (hn : n < i.len) :
    decodeWith N ((encodeWith N i).take n) = .error .outOfBounds := by
  refine (appendStable_decodeWith _ ((encodeWith N i).drop n)).resolve_right fun hmore => ?_
  have hall : decodeWith N (encodeWith N i) = .ok (i, []) := by
    simpa using decodeWith_encodeWith (rest := []) h
  rw [List.take_append_drop, hall] at hmore
  cases hcut : decodeWith N ((encodeWith N i).take n) with
  | error f => rw [hcut] at hmore; cases hmore
  | ok p =>
    rw [hcut] at hmore
    obtain ⟨-, hrest⟩ : i = p.1 ∧ [] = p.2 ++ (encodeWith N i).drop n := by simpa [Except.map] using hmore
    have hlen := length_encodeWith (N := N) i
    have hdrop : (encodeWith N i).drop n = [] := (List.append_eq_nil_iff.1 hrest.symm).2
    rw [List.drop_eq_nil_iff] at hdrop
    omega

/-! ## Words of the spec (R110) -/

theorem decode_of_encode_eq {rest : List Byte} (hb : encode i ++ rest = bs) (h : i.wellFormed = true) :
    decode bs = .ok (i, rest) := by
  rw [← hb]
  exact decodeWith_encodeWith h

/-- Settles O3: the words are encodings; INT's ends before its payload. -/
theorem specWordsDecode : Obligations.SpecWordsDecode :=
  ⟨decode_of_encode_eq rfl rfl, decode_of_encode_eq rfl rfl, decode_of_encode_eq rfl rfl, decode_of_encode_eq rfl rfl,
    decode_of_encode_eq rfl rfl, decode_of_encode_eq rfl rfl⟩

end Sys2Proof

namespace Sys2Proof.Machine

variable {m m' : Memory} {s t u : State} {a : Int} {i : Instr} {n : Nat}

/-! ## The window at the end of memory (R105) -/

/-- Where bytes would run past the end of memory, the window is what memory holds of them, and no more. -/
theorem fetchWindow_eq_take {x : Nat} {bs : List Byte} (hlen : bs.length ≤ maxInstrBytes) (hx : x < Config.memSize)
    (hpast : Config.memSize < x + bs.length)
    (h : ∀ k, (hk : k < bs.length) → x + k < Config.memSize → m.read (x + k) = bs[k]) :
    fetchWindow m x = bs.take (Config.memSize - x) := by
  have hl : (bs.take (Config.memSize - x)).length = Config.memSize - x := by rw [List.length_take]; omega
  obtain ⟨rest, hr⟩ := fetchWindow_eq_append (m := m) (x := x) (bs := bs.take (Config.memSize - x)) (by omega)
    (by omega) fun k hk => by rw [List.getElem_take]; exact h k (by omega) (by omega)
  have hrest := congrArg List.length hr
  rw [length_fetchWindow, List.length_append, hl] at hrest
  rw [hr, List.length_eq_zero_iff.1 (show rest.length = 0 by omega), List.append_nil]

/-- Settles O9: the decoder refuses the cut bytes, and at the end of memory it is given no others. -/
theorem truncatedInstructionIsOutOfBounds : Obligations.TruncatedInstructionIsOutOfBounds := by
  intro i hw
  refine ⟨fun n hn => decodeWith_take_encodeWith hw hn, fun m a ha hpast h => ?_⟩
  have hlen : (encode i).length = i.len := length_encodeWith i
  have hwin : fetchWindow m a = (encode i).take (Config.memSize - a) :=
    fetchWindow_eq_take (by rw [hlen]; exact len_le i) ha (by rwa [hlen]) h
  have hcut : decode (fetchWindow m a) = .error .outOfBounds := by
    rw [hwin]
    exact decodeWith_take_encodeWith hw (by simp only [Config.memSize]; omega)
  rw [decodeAt_in (by simp only [inBounds, Config.memSize]; omega), Int.toNat_natCast, hcut]
  rfl

/-! ## What a decode depends on (R106) -/

/-- An instruction that is decoded ends inside memory: one that runs past its end is cut short. -/
theorem end_le_of_decodeAt_eq_ok (h : decodeAt m a = .ok i) : a + i.len ≤ 0x10000 := by
  obtain ⟨ha, hw, hb⟩ := decodeAt_eq_ok h
  by_contra hpast
  have hin : inBounds a 1 := by
    by_contra hout
    rw [decodeAt_out hout] at h
    cases h
  simp only [inBounds, Config.memSize] at hin
  obtain ⟨-, hmem⟩ := truncatedInstructionIsOutOfBounds i hw
  have hcut := hmem m a.toNat (by omega) (by omega) fun k hk _ => hb.read hk
  rw [Int.toNat_of_nonneg ha, h] at hcut
  cases hcut

/-- Bytes of a well-formed instruction that end inside memory are decoded as that instruction. -/
theorem decodeAt_encode (hw : i.wellFormed = true) (ha : 0 ≤ a) (hf : a + i.len ≤ 0x10000)
    (h : ∀ k, (hk : k < (encode i).length) → m.read (a.toNat + k) = (encode i)[k]) : decodeAt m a = .ok i :=
  decodeAt_of_roundTrip (fun _ _ => decodeWith_encodeWith) hw ha hf h

/-- Settles O10: the other memory holds the same encoding, and it ends inside memory. -/
theorem decodeReadsOnlyTheInstruction : Obligations.DecodeReadsOnlyTheInstruction := by
  intro m m' a i h
  refine ⟨len_le i, fun hsame => ?_⟩
  obtain ⟨ha, hw, hb⟩ := decodeAt_eq_ok h
  have hlen : (encode i).length = i.len := length_encodeWith i
  exact decodeAt_encode hw ha (end_le_of_decodeAt_eq_ok h) fun k hk => by rw [← hsame k (by omega), hb.read hk]

end Sys2Proof.Machine
end

section
/-! The step around `exec`: which instruction it runs and where `ip` stands, the faults of fetch and decode, and the registers
that an instruction leaves alone. -/

namespace Sys2Proof.Machine

variable {s t u : State} {i : Instr} {f : FaultInfo} {n : Nat} {q r : Reg} {v : Word} {m : Memory} {ws : List Reg}

/-! ## The instruction a step runs (R90, R103) -/

theorem advance_eq : advance n s = { s with ip := s.ip + BitVec.ofNat 32 n } :=
  congrArg (fun v => { s with ip := v }) advance_ip

/-- Settles O11: the law of a step whose decode succeeds; `advance` is the update of `ip`. -/
theorem stepRunsTheDecodedInstruction : Obligations.StepRunsTheDecodedInstruction :=
  fun _ _ => step_ok

/-- Settles O12: an instruction that ends inside memory begins inside it, so `ip` does not wrap. -/
theorem stepRunsTheEncodedInstruction : Obligations.StepRunsTheEncodedInstruction := by
  intro s i hh hw hip hend hb
  have hlt : s.ip.toInt < 0x10000 := by have := len_pos i; omega
  have hwrap : wrapIp s = s := wrapIp_of_lt hlt
  have hd : decodeAt s.mem (wrapIp s).ip.toInt = .ok i := by
    rw [hwrap]
    exact decodeAt_encode hw hip hend (by rwa [toNat_toInt_of_nonneg hip])
  rw [step_ok hh hd, hwrap, advance_eq]

/-- Settles O60: `ip` is where the last reported payload ends, and the first one ends where the second begins. -/
theorem ipOperandIsItsEnd : Obligations.IpOperandIsItsEnd := by
  intro s d hh h
  obtain ⟨hd, -, hlen, -, -, -, -, -, -, hends, hlast, -⟩ := decoderReportsTheInstruction _ _ _ h
  refine ⟨by rw [step_ok hh hd, ← hlen]; rfl, fun o ho => ?last, fun o₁ o₂ hops => ?pair⟩
  case last =>
    rw [hlast o ho]
    rfl
  case pair =>
    have hfirst : BitVec.ofInt 32 ((wrapIp s).ip.toInt + d.len) - BitVec.ofNat 32 o₂.operand.payloadLen =
        BitVec.ofInt 32 o₁.endAddr := by
      have hsecond := hends o₁ o₂ hops
      have hend := hlast o₂ (by simp [hops])
      rw [show (wrapIp s).ip.toInt + d.len = o₁.endAddr + o₂.operand.payloadLen by omega, BitVec.ofInt_add]
      exact BitVec.add_sub_cancel _ _
    refine ⟨hfirst, ?_⟩
    cases hread : Config.arithDstRead <;> simp [oldValue, hread, hfirst]

/-! ## The wrap of `ip` (R91) -/

theorem step_wrapIp : step (wrapIp s) = step s := by
  simp [step, wrapIp_wrapIp]

/-- Settles O13: the wrap is the first thing a step does. -/
theorem stepWrapsIpToZero : Obligations.StepWrapsIpToZero := by
  intro s _ h
  rw [← step_wrapIp, wrapIp_of_ge h]
  rfl

/-! ## Faults of fetch and decode (R92, R108) -/

/-- The wrap touches `ip` alone, which a fault draws anew. -/
theorem faultedFrom_of_wrapIp (h : FaultedFrom (wrapIp s) t) : FaultedFrom s t := by
  obtain ⟨hh, hf, hip, hd, hr, hm⟩ := h
  rw [wrapIp_draws] at hip hd
  exact ⟨hh, hf, hip, hd, fun r hne => (hr r hne).trans (wrapIp_reg (by simpa using hne)), hm.trans wrapIp_mem⟩

/-- Settles O15: the fault is taken from the wrapped state, which differs from the start of the step in `ip` alone. -/
theorem decodeFaultLeavesTheState : Obligations.DecodeFaultLeavesTheState :=
  fun _ _ hh hd => ⟨_, step_error hh hd, faultedFrom_of_wrapIp raiseFault_faultedFrom⟩

/-- Settles O14: a negative `ip` is not wrapped, and no byte stands there. -/
theorem negativeIpFaultsAtFetch : Obligations.NegativeIpFaultsAtFetch := by
  intro s hh hneg
  refine decodeFaultLeavesTheState s .outOfBounds hh (decodeAt_out fun hin => ?_)
  rw [wrapIp_of_lt (by omega)] at hin
  exact absurd hin.1 (by omega)

/-- Settles O17: the decode answers an instruction, and every instruction answers a next state, or it faults. -/
theorem runningMachineAlwaysSteps : Obligations.RunningMachineAlwaysSteps := by
  refine fun s => ⟨fun hh => ?_, step_halted⟩
  cases hd : decodeAt s.mem (wrapIp s).ip.toInt with
  | ok i => rw [step_ok hh hd]; exact exec_next i _
  | error f => exact ⟨_, step_error hh hd⟩

/-! ## The registers an instruction leaves alone (R103, R24) -/

/-- Every register but the named ones is kept, save `ip` where a fault was taken. -/
def KeepsRegsBut (ws : List Reg) (s t : State) : Prop := ∀ r ∉ ws, t.faulted = false ∨ r ≠ .ip → t.reg r = s.reg r

theorem keepsRegsBut_refl : KeepsRegsBut ws s s := fun _ _ _ => rfl

theorem keepsRegsBut_setReg (hq : q ∈ ws) (h : KeepsRegsBut ws s t) : KeepsRegsBut ws s (t.setReg q v) :=
  fun r hr hf => (State.reg_setReg_ne _ _ _ _ (ne_of_mem_of_not_mem hq hr).symm).trans (h r hr (by simpa using hf))

theorem keepsRegsBut_setMem (h : KeepsRegsBut ws s t) : KeepsRegsBut ws s (t.setMem m) :=
  fun r hr hf => (State.setMem_reg _ _ _).trans (h r hr hf)

theorem keepsRegsBut_halt (h : KeepsRegsBut ws s t) : KeepsRegsBut ws s t.halt :=
  fun r hr hf => (State.halt_reg _ _).trans (h r hr hf)

theorem keepsRegsBut_raiseFault (h : KeepsRegsBut ws s t) : KeepsRegsBut ws s (t.raiseFault f) := by
  intro r hr hf
  have hip : r ≠ .ip := by simpa using hf
  exact (State.raiseFault_reg _ _ _ hip).trans (h r hr (.inr hip))

/-- An instruction writes its own registers and no others. -/
theorem exec_keepsRegsBut (h : exec i s = .next t) : KeepsRegsBut (writtenRegs i) s t := by
  by_cases hi : i = .apush
  · subst hi
    exact pushAll_preserves (fun _ _ hu _ => keepsRegsBut_setMem hu) (fun _ _ => keepsRegsBut_raiseFault)
      keepsRegsBut_refl h
  by_cases hi' : i = .apop
  · subst hi'
    exact popAll_preserves (fun _ _ hq hu _ => keepsRegsBut_setReg hq (keepsRegsBut_setMem hu))
      (fun _ _ => keepsRegsBut_raiseFault) keepsRegsBut_refl h
  rcases exec_cases hi hi' h with rfl | ⟨-, rfl⟩ | ⟨r, hr, w, rfl⟩ | ⟨a, b, -, -, rfl⟩ | ⟨w, -, -, rfl⟩ |
    ⟨r, hr, -, -, rfl⟩ | ⟨f, rfl⟩
  · exact keepsRegsBut_refl
  · exact keepsRegsBut_halt keepsRegsBut_refl
  · exact keepsRegsBut_setReg hr keepsRegsBut_refl
  · exact keepsRegsBut_setMem keepsRegsBut_refl
  · exact keepsRegsBut_setMem keepsRegsBut_refl
  · exact keepsRegsBut_setReg hr (keepsRegsBut_setMem keepsRegsBut_refl)
  · exact keepsRegsBut_raiseFault keepsRegsBut_refl

/-- Settles O49: the frame, for a register that no fault draws anew and for an `ip` without a fault. -/
theorem registerFrame : Obligations.RegisterFrame :=
  fun _ _ _ h => ⟨fun r hr hip => exec_keepsRegsBut h r hr (.inr hip),
    fun _ ht hip => exec_keepsRegsBut h .ip hip (.inl ht)⟩

/-- Settles O18: the instruction keeps the `ip` that the step had moved past it. -/
theorem ipIsPastTheInstruction : Obligations.IpIsPastTheInstruction := by
  intro s t i h hd _ ht hip
  obtain ⟨hh, -⟩ := step_cases h
  rw [step_ok hh hd] at h
  exact (exec_keepsRegsBut h .ip hip (.inl ht)).trans advance_ip

/-! ## Operands outside memory (R100) -/

/-- Settles O25: each of the four forms faults on the operand, in the conditional jump on either of its two. -/
theorem unreadableOperandFaults : Obligations.UnreadableOperandFaults := by
  intro s ff r a o d h
  refine fun i hi => ⟨_, ?_, raiseFault_faultedFrom (f := .outOfBounds)⟩
  revert i
  have hmov {dst} : execMov dst o s = .next (s.raiseFault .outOfBounds) := execMov_unreadable h
  have harith {g} : execArith g r o s = .next (s.raiseFault .outOfBounds) := execArith_unreadable h
  have hjmp : execJmp o s = .next (s.raiseFault .outOfBounds) := execJmp_unreadable h
  have htest {cond} : condJump cond d o s = .next (s.raiseFault .outOfBounds) := condJump_unreadable fun hr => h hr.2
  have hdest {cond} : condJump cond o d s = .next (s.raiseFault .outOfBounds) := condJump_unreadable fun hr => h hr.1
  simp only [List.forall_mem_cons, List.not_mem_nil, false_imp_iff, implies_true, and_true]
  exact ⟨hmov, hmov, harith, harith, harith, harith, hjmp, htest, htest, htest, htest, hdest, hdest, hdest, hdest⟩

end Sys2Proof.Machine
end

section
/-! NOP, HWID and INT do nothing; MOV writes a whole register or one byte of memory, loads one signed byte, and refuses every
other destination as it is decoded. -/

namespace Sys2Proof.Machine

variable {s t : State} {m : Memory} {a : Int} {x v : Word} {b ff : Byte}

/-- Settles O26: each of the three answers the state it was given. -/
theorem nopHwidIntChangeNothing : Obligations.NopHwidIntChangeNothing :=
  fun _ _ _ => ⟨rfl, rfl, rfl⟩

/-! ## MOV's two writes (R122, R123) -/

/-- Settles O29: the write of the one register, and its frame. -/
theorem movWritesTheRegister : Obligations.MovWritesTheRegister :=
  fun _ _ _ _ h => ⟨_, execMov_reg h, State.reg_setReg_same _ _ _, setReg_regsOnly⟩

theorem trunc8_eq_setWidth : trunc8 v = v.setWidth 8 := (BitVec.setWidth_eq_extractLsb' (by decide)).symm

/-- A fault whose `ip` is left unsaid. -/
theorem FaultedFrom.faultHalts (h : FaultedFrom s t) : FaultHalts s t := by
  obtain ⟨hh, hf, -, -, hr, hm⟩ := h
  exact ⟨hh, hf, hr, hm⟩

/-- Settles O30: the store of one byte, or the fault of an address outside memory. -/
theorem movStoresOneByte : Obligations.MovStoresOneByte := by
  intro s ff a src h
  have hbounds : inBounds a.toInt 1 ↔ 0 ≤ a.toInt ∧ a.toInt < 0x10000 := readable_mem.symm
  refine ⟨fun ha => ⟨_, execMov_const h (hbounds.2 ha), ?stored, ?frame, ?regs, rfl, rfl, rfl⟩, fun ha => ?outside⟩
  case stored => rw [State.setMem_mem, Memory.read_write_same, trunc8_eq_setWidth]
  case frame => exact fun x hx => Memory.read_write_ne (by omega)
  case regs => exact fun r _ => State.setMem_reg _ _ _
  case outside =>
    exact ⟨_, execMov_const_error h (hbounds.not.2 (by omega)), raiseFault_faultedFrom.faultHalts⟩

/-! ## A MemoryValue source (R100, R125) -/

theorem lastValue_mem : lastValue s (.mem x) = (s.mem.read x.toNat).signExtend 32 := rfl

theorem toInt_signExtend_byte_bounds : -128 ≤ (b.signExtend 32).toInt ∧ (b.signExtend 32).toInt ≤ 127 := by
  have hlo : -2 ^ 8 ≤ 2 * b.toInt := BitVec.le_two_mul_toInt
  have hhi : 2 * b.toInt < 2 ^ 8 := BitVec.two_mul_toInt_lt
  rw [BitVec.toInt_signExtend_of_le (by decide)]
  omega

theorem setWidth_signExtend_byte : (b.signExtend 32).setWidth 8 = b := by
  ext k hk
  rw [BitVec.getElem_setWidth, BitVec.getLsbD_signExtend]
  simp [hk, show k < 32 by omega]

/-- Settles O31: the register gets the sign extension of the byte (O29), which keeps its value and its bits. -/
theorem movLoadsOneSignedByte : Obligations.MovLoadsOneSignedByte := by
  intro s ff r a h0 h1
  obtain ⟨t, ht, hr, -⟩ := movWritesTheRegister s ff r (.mem a) ⟨h0, h1⟩
  obtain ⟨hlo, hhi⟩ := toInt_signExtend_byte_bounds (b := s.mem.read a.toNat)
  rw [lastValue_mem] at hr
  exact ⟨t, ht, hr ▸ hlo, hr ▸ hhi, hr ▸ setWidth_signExtend_byte⟩

/-! ## Destinations that MOV refuses (R124) -/

/-- Where MOV's code and a flag byte stand in memory, the decode is that of MOV's layout. -/
theorem decodeAt_mov (ha : 0 ≤ a) (hend : a + 2 ≤ 0x10000) (hop : m.read a.toNat = numbering.opc .mov)
    (hff : m.read (a.toNat + 1) = ff) : ∃ rest, decodeAt m a = (decodeMov numbering (ff :: rest)).map (·.1) := by
  have hb : m.Holds a.toNat [numbering.opc .mov, ff] :=
    Memory.holds_cons.2 ⟨hop, Memory.holds_cons.2 ⟨hff, rfl⟩⟩
  obtain ⟨rest, hwin⟩ := fetchWindow_eq_append (by simp [maxInstrBytes])
    (by simp only [List.length_cons, List.length_nil, Config.memSize]; omega) fun _ hk => hb.read hk
  refine ⟨rest, ?_⟩
  rw [decodeAt_in (by simp only [inBounds, Config.memSize]; omega), hwin]
  simp only [decode, List.cons_append, List.nil_append, decodeWith_cons, Numbering.mnemonicOf_opc, Option.getD_some]

/-- Settles O16: MOV's layout refuses the tag before the payload, and the step takes the fault of the decode. -/
theorem movWithBadDestinationFaults : Obligations.MovWithBadDestinationFaults := by
  intro s ff hh hip hend hop hff
  rw [← toNat_toInt_of_nonneg hip] at hop hff
  obtain ⟨rest, hd⟩ := decodeAt_mov hip hend hop hff
  have hmem (h : field ff 0 = 3) : decodeAt s.mem s.ip.toInt = .error .invalidArgumentType := by
    rw [hd, decodeMov_memoryValue (tagAt_eq_memoryValue.2 h)]
    rfl
  have hres (h : field ff 0 = 0) : decodeAt s.mem s.ip.toInt = .error .invalidOperandType := by
    have ht : tagAt ff 0 = .reserved := tagAt_eq_reserved.2 h
    rw [hd, decodeMov_eq_decodeCond (by simp [ht]), decodeCond_reserved_first ht]
    rfl
  refine ⟨hmem, hres, fun h => ?_⟩
  obtain ⟨f, hf⟩ : ∃ f, decodeAt s.mem s.ip.toInt = .error f :=
    h.elim (fun h => ⟨_, hmem h⟩) fun h => ⟨_, hres h⟩
  have hwrap : wrapIp s = s := wrapIp_of_lt (by omega)
  obtain ⟨t, hs, ht⟩ := decodeFaultLeavesTheState s f hh (by rwa [hwrap])
  exact ⟨t, hs, ht.faultHalts⟩

end Sys2Proof.Machine
end

section
/-! ADD, SUB, MUL and DIV: the word each of them writes, as a signed result that is wrapped and as an operation on words; the
fault of a zero divisor, the signs of a quotient, and the jumps that ADD and SUB make of a write to `ip`. -/

namespace Sys2Proof.Machine

variable {s : State} {i : Instr} {r : Reg} {val : Operand} {v x y : Word} {ff : Byte}

/-! ## The next state of each instruction (R131 to R134) -/

theorem exec_add (h : Readable val) :
    exec (.add ff r val) s = .next (s.setReg r (wrap32 ((oldValue s r val).toInt + (lastValue s val).toInt))) :=
  arithOld_eq ▸ execAdd_eq h

theorem exec_sub (h : Readable val) :
    exec (.sub ff r val) s = .next (s.setReg r (wrap32 ((oldValue s r val).toInt - (lastValue s val).toInt))) :=
  arithOld_eq ▸ execSub_eq h

theorem exec_mul (h : Readable val) :
    exec (.mul ff r val) s = .next (s.setReg r (wrap32 ((oldValue s r val).toInt * (lastValue s val).toInt))) :=
  arithOld_eq ▸ execMul_eq h

theorem exec_div (h : Readable val) (hv : lastValue s val ≠ 0) :
    exec (.div ff r val) s = .next (s.setReg r (wrap32 ((oldValue s r val).toInt.tdiv (lastValue s val).toInt))) :=
  arithOld_eq ▸ execDiv_eq h hv

/-- The write of one register, as the new value and the frame. -/
theorem regsOnly_of_exec_eq_setReg (h : exec i s = .next (s.setReg r v)) :
    ∃ t, exec i s = .next t ∧ t.reg r = v ∧ RegsOnly [r] s t :=
  ⟨_, h, State.reg_setReg_same _ _ _, setReg_regsOnly⟩

/-- Settles O32: each writes the wrapped exact result and no other register. -/
theorem addSubMulWrap : Obligations.AddSubMulWrap :=
  fun _ _ _ _ h => ⟨regsOnly_of_exec_eq_setReg (exec_add h), regsOnly_of_exec_eq_setReg (exec_sub h),
    regsOnly_of_exec_eq_setReg (exec_mul h)⟩

/-- Settles O34: the write of the quotient, or the fault of a zero divisor, which writes nothing. -/
theorem divTruncatesOrFaults : Obligations.DivTruncatesOrFaults :=
  fun _ _ _ _ h => ⟨fun hv => regsOnly_of_exec_eq_setReg (exec_div h hv),
    fun hv => ⟨_, execDiv_zero h hv, raiseFault_faultedFrom⟩⟩

/-! ## Wrapped results are operations on words (R135, decision D11) -/

theorem wrap32_add_toInt : wrap32 (x.toInt + y.toInt) = x + y := by
  simp [wrap32, BitVec.ofInt_add]

theorem wrap32_sub_toInt : wrap32 (x.toInt - y.toInt) = x - y := by
  simp [wrap32, Int.sub_eq_add_neg, BitVec.sub_eq_add_neg, BitVec.ofInt_add, BitVec.ofInt_neg]

theorem wrap32_mul_toInt : wrap32 (x.toInt * y.toInt) = x * y := by
  simp [wrap32, BitVec.ofInt_mul]

theorem wrap32_tdiv_toInt : wrap32 (x.toInt.tdiv y.toInt) = x.sdiv y :=
  BitVec.eq_of_toInt_eq ((BitVec.toInt_ofInt _).trans (BitVec.toInt_sdiv x y).symm)

/-- Settles O33: the wrapped result of each is the ring operation on the two words. -/
theorem addSubMulAreRingOperations : Obligations.AddSubMulAreRingOperations := by
  intro s ff r val h
  rw [exec_add h, exec_sub h, exec_mul h, wrap32_add_toInt, wrap32_sub_toInt, wrap32_mul_toInt]
  exact ⟨rfl, rfl, rfl⟩

/-! ## The signs of a quotient (R135, decision D12) -/

/-- Truncation toward zero, in floor divisions of non-negative numbers. -/
theorem tdiv_eq_signTable (a b : Int) :
    a.tdiv b = if 0 ≤ a ∧ 0 < b then a / b
      else if a < 0 ∧ 0 < b then -((-a) / b)
      else if 0 ≤ a then -(a / (-b))
      else (-a) / (-b) := by
  have hneg (h : a < 0) : a.tdiv b = -((-a) / b) := by
    rw [← Int.tdiv_eq_ediv_of_nonneg (by omega), Int.neg_tdiv, Int.neg_neg]
  split_ifs with hpp hnp hp
  · exact Int.tdiv_eq_ediv_of_nonneg hpp.1
  · exact hneg hnp.1
  · rw [Int.ediv_neg, Int.neg_neg, Int.tdiv_eq_ediv_of_nonneg hp]
  · rw [Int.ediv_neg, hneg (by omega)]

/-- The one quotient of two words that wraps is -2^31 by -1. -/
theorem toInt_sdiv_eq_tdiv (h : ¬ (x.toInt = -2 ^ 31 ∧ y.toInt = -1)) : (x.sdiv y).toInt = x.toInt.tdiv y.toInt := by
  refine BitVec.toInt_sdiv_of_ne_or_ne x y (not_and_or.1 fun ⟨hx, hy⟩ => h ?_)
  rw [hx, hy]
  decide

theorem toInt_sdiv_of_overflow (hx : x.toInt = -2 ^ 31) (hy : y.toInt = -1) : (x.sdiv y).toInt = -2 ^ 31 := by
  rw [BitVec.toInt_sdiv, hx, hy]
  decide

/-- Settles O35: the one row that wraps, then the rows of the exact quotient. -/
theorem divSignTable : Obligations.DivSignTable := by
  intro s ff r val h hr hv
  refine ⟨_, exec_div h hv, ?_⟩
  have hold : oldValue s r val = s.reg r := if_neg hr
  rw [State.reg_setReg_same, hold, wrap32_tdiv_toInt]
  by_cases hwrap : (s.reg r).toInt = -2 ^ 31 ∧ (lastValue s val).toInt = -1
  · exact (toInt_sdiv_of_overflow hwrap.1 hwrap.2).trans (if_pos hwrap).symm
  · exact (toInt_sdiv_eq_tdiv hwrap).trans ((tdiv_eq_signTable _ _).trans (if_neg hwrap).symm)

/-! ## Relative jumps (R136) -/

/-- Settles O36: the ring operations (O33) on the old value of `ip`, which ARITH_DST_READ places at one of two addresses. -/
theorem addToIpIsARelativeJump : Obligations.AddToIpIsARelativeJump := by
  intro s ff a n base
  have hold : oldValue { s with ip := a + 7 } .ip (.const n) = a + base := by
    cases hread : Config.arithDstRead with
    | afterDstByte => simp [oldValue, base, hread, Operand.payloadLen, BitVec.sub_eq_add_neg, BitVec.add_assoc]
    | afterInstruction => simp [oldValue, base, hread]
  obtain ⟨hadd, hsub, -⟩ := addSubMulAreRingOperations { s with ip := a + 7 } ff .ip (.const n) trivial
  rw [hold] at hadd hsub
  exact ⟨hadd, hsub⟩

end Sys2Proof.Machine
end

section
/-! PUSH, POP, APUSH and APOP: the list of entries a stack holds and what a push or a pop does to it, the runs of pushes and
pops that APUSH and APOP are, and what each of the four leaves in every byte, register and flag. -/

namespace Sys2Proof.Machine

variable {s t u : State} {m : Memory} {ff : Byte} {r q : Reg} {rs : List Reg} {v w : Word} {vs : List Word}
  {b n j k x : Nat}

/-! ## The entries of a stack (R140) -/

/-- Entry `k` of the stack, the newest being entry 0, whether or not the count reaches it. -/
def entry (s : State) (k : Nat) : Word := s.mem.word (stackBase s + 4 + 4 * k)

/-- The entries the count word announces, newest first. -/
def entries (s : State) : List Word := (List.range (stackCount s).toNat).map (entry s)

theorem getElem?_entries (hj : j < (stackCount s).toNat) : (entries s)[j]? = some (entry s j) := by
  simp [entries, hj]

theorem lt_of_getElem?_entries (h : (entries s)[j]? = some v) : j < (stackCount s).toNat := by
  obtain ⟨hlt, -⟩ := List.getElem?_eq_some_iff.1 h
  simpa [entries] using hlt

theorem entry_eq_of_getElem? (h : (entries s)[j]? = some v) : entry s j = v := by
  rwa [getElem?_entries (lt_of_getElem?_entries h), Option.some_inj] at h

/-- A stack with one entry more, whose older entries have all moved up one slot. -/
theorem entries_eq_cons (hn : (stackCount t).toNat = (stackCount s).toNat + 1)
    (h : ∀ j < (stackCount s).toNat, entry t (j + 1) = entry s j) : entries t = entry t 0 :: entries s := by
  rw [entries, hn, List.range_succ_eq_map, List.map_cons, List.map_map]
  exact congrArg _ (List.map_congr_left fun j hj => h j (List.mem_range.1 hj))

theorem entry_of_entries_eq_append (h : entries t = vs ++ entries s) (hj : j < (stackCount s).toNat) :
    entry t (vs.length + j) = entry s j :=
  entry_eq_of_getElem? (by rw [h, List.getElem?_append_right (by omega), Nat.add_sub_cancel_left, getElem?_entries hj])

/-- Entries below others stand four bytes further up for each of those, byte by byte. -/
theorem read_of_entries_eq_append (h : entries t = vs ++ entries s) (hb : stackBase t = stackBase s)
    (hx : stackBase s + 4 + 4 * vs.length ≤ x)
    (hx' : x < stackBase s + 4 + 4 * vs.length + 4 * (stackCount s).toNat) :
    t.mem.read x = s.mem.read (x - 4 * vs.length) := by
  obtain ⟨y, rfl⟩ := Nat.exists_eq_add_of_le hx
  have hword : entry t (vs.length + y / 4) = entry s (y / 4) := entry_of_entries_eq_append h (by omega)
  have hbyte := Memory.read_of_word_eq hword (Nat.mod_lt y (by decide))
  rw [hb] at hbyte
  convert hbyte using 2 <;> omega

/-- A store that ends below an entry leaves it alone. -/
theorem entry_of_memOutside {lo hi : Nat} (h : MemOutside lo hi s t) (hb : stackBase t = stackBase s)
    (hj : hi ≤ stackBase s + 4 + 4 * j) : entry t j = entry s j := by
  rw [entry, hb]
  exact Memory.word_congr fun k _ => h _ (by omega)

/-! ## One push, one pop -/

theorem entry_pushed_zero : entry (s.setMem (pushedMem s.mem (stackBase s) n v)) 0 = v := pushedMem_word_top

theorem entry_pushed_succ (hj : j < n) : entry (s.setMem (pushedMem s.mem (stackBase s) n v)) (j + 1) = entry s j := by
  rw [entry, stackBase_setMem, State.setMem_mem]
  exact pushedMem_word_shifted (by omega) (by omega)

theorem entries_pushed (h : CanPush s) :
    entries (s.setMem (pushedMem s.mem (stackBase s) (stackCount s).toNat v)) = v :: entries s := by
  have hn := stackCount_pushed (v := v) h
  obtain ⟨-, -, hpos, -⟩ := h
  rw [entries_eq_cons (by omega) fun _ => entry_pushed_succ, entry_pushed_zero]

theorem entry_popped (hr : r ≠ .sp) (hj : j + 1 < (stackCount s).toNat) :
    entry ((s.setMem (poppedMem s.mem (stackBase s) (stackCount s).toNat)).setReg r v) j = entry s (j + 1) := by
  rw [entry, stackBase_popped hr, State.setReg_mem]
  exact poppedMem_word_shifted (by omega) (by omega)

theorem entries_popped (hr : r ≠ .sp) (h : CanPop s) :
    entries s = s.mem.word (stackBase s + 4) ::
      entries ((s.setMem (poppedMem s.mem (stackBase s) (stackCount s).toNat)).setReg r v) := by
  have hn := stackCount_popped (w := v) hr h
  obtain ⟨-, -, hpos, -⟩ := h
  exact entries_eq_cons (by omega) fun j hj => (entry_popped hr (by omega)).symm

/-! ## Runs of pushes and pops -/

/-- A run of pushes with room for all of them stores the registers above the old entries, the last one pushed on top, and
writes nothing but memory. -/
theorem pushAll_fits (h0 : 0 ≤ s.sp.toInt) (hpos : 0 ≤ stackCount s)
    (hroom : s.sp.toInt + 4 + 4 * (stackCount s + rs.length) ≤ 0x10000) :
    ∃ m, pushAll rs s = .next (s.setMem m) ∧ stackCount (s.setMem m) = stackCount s + rs.length ∧
      entries (s.setMem m) = (rs.map s.reg).reverse ++ entries s := by
  induction rs generalizing s with
  | nil => exact ⟨s.mem, rfl, (Int.add_zero _).symm, rfl⟩
  | cons r rs ih =>
    rw [List.length_cons] at hroom
    have hc : CanPush s := ⟨h0, by omega, hpos, by omega⟩
    have hn := stackCount_pushed (v := s.reg r) hc
    obtain ⟨m, hrun, hcount, hentries⟩ :=
      ih (s := s.setMem (pushedMem s.mem (stackBase s) (stackCount s).toNat (s.reg r))) h0 (by omega)
        (by rw [hn, State.setMem_sp]; omega)
    refine ⟨m, (pushAll_cons_ok hc).trans hrun, ?count, hentries.trans ?entries⟩
    case count =>
      rw [List.length_cons]
      rw [State.setMem_setMem, hn] at hcount
      omega
    case entries => simp [entries_pushed hc]

theorem SameStatus.trans (h : SameStatus s u) (h' : SameStatus u t) : SameStatus s t := by
  obtain ⟨hh, hf, hd⟩ := h
  obtain ⟨hh', hf', hd'⟩ := h'
  exact ⟨hh'.trans hh, hf'.trans hf, hd'.trans hd⟩

/-- What a run of pops from `s` leaves in `t`: the registers hold the newest entries and the rest of the entries stay; each
slot that was vacated holds the oldest entry (R148), because every pop leaves the last slot it copied from as it was. -/
structure Popped (rs : List Reg) (s t : State) : Prop where
  count : stackCount t = stackCount s - rs.length
  entries_eq : entries s = rs.map t.reg ++ entries t
  stale : ∀ j, (stackCount s).toNat - rs.length ≤ j → j < (stackCount s).toNat →
    entry t j = entry s ((stackCount s).toNat - 1)
  frame : MemOutside (stackBase s) (stackBase s + 4 + 4 * ((stackCount s).toNat - 1)) s t
  regs : SameRegsBut rs s t
  status : SameStatus s t

theorem Popped.stackBase_eq (h : Popped rs s t) (hsp : .sp ∉ rs) : stackBase t = stackBase s :=
  congrArg BitVec.toNat (h.regs .sp hsp)

theorem popped_nil : Popped [] s s where
  count := (Int.sub_zero _).symm
  entries_eq := rfl
  stale _ hj hj' := absurd hj' (Nat.not_lt.2 hj)
  frame := memOutside_of_mem_eq rfl
  regs _ _ := rfl
  status := sameStatus_refl

theorem popped_singleton (hr : r ≠ .sp) (h : CanPop s) :
    Popped [r] s ((s.setMem (poppedMem s.mem (stackBase s) (stackCount s).toNat)).setReg r
      (s.mem.word (stackBase s + 4))) where
  count := stackCount_popped hr h
  entries_eq := by simpa using entries_popped hr h
  stale j hj hj' := by
    rw [List.length_singleton] at hj
    rw [entry_of_memOutside memOutside_popped (stackBase_popped hr) (by omega)]
    congr 1
    omega
  frame := memOutside_popped
  regs q hq := (State.reg_setReg_ne _ _ _ _ (by simpa using hq)).trans (State.setMem_reg _ _ _)
  status := sameStatus_setReg (sameStatus_setMem sameStatus_refl)

/-- A pop and then a run of pops into other registers: the slot the first one vacates keeps its bytes to the end, and the
slots that the others vacate get the oldest entry, which has moved down by then. -/
theorem Popped.cons (hfirst : Popped [r] s u) (hrest : Popped rs u t) (hsp : .sp ∉ r :: rs) (hr : r ∉ rs)
    (hlen : rs.length + 1 ≤ stackCount s) : Popped (r :: rs) s t := by
  obtain ⟨hspr, hsprs⟩ : .sp ∉ [r] ∧ .sp ∉ rs := by simpa using hsp
  have hbase : stackBase u = stackBase s := hfirst.stackBase_eq hspr
  have hcount : stackCount u = stackCount s - 1 := hfirst.count
  constructor
  case count => rw [hrest.count, hcount, List.length_cons]; omega
  case entries_eq => simp [hfirst.entries_eq, hrest.entries_eq, hrest.regs r hr]
  case stale =>
    intro j hj hj'
    rw [List.length_cons] at hj
    by_cases hlast : j = (stackCount s).toNat - 1
    · rw [entry_of_memOutside hrest.frame (hrest.stackBase_eq hsprs) (by omega)]
      exact hfirst.stale j (by rw [List.length_singleton]; omega) hj'
    · rw [hrest.stale j (by omega) (by omega), ← entry_of_entries_eq_append hfirst.entries_eq (by omega)]
      congr 1
      simp only [List.length_map, List.length_singleton]
      omega
  case frame =>
    have hframe := hrest.frame
    rw [hbase] at hframe
    exact hfirst.frame.trans (hframe.mono le_rfl (by omega))
  case regs =>
    intro q hq
    obtain ⟨hqr, hqrs⟩ : q ∉ [r] ∧ q ∉ rs := by simpa using hq
    exact (hrest.regs q hqrs).trans (hfirst.regs q hqr)
  case status => exact hfirst.status.trans hrest.status

/-- A run of pops into different registers, SP not among them, with an entry for each. -/
theorem popAll_fits (hsp : .sp ∉ rs) (hnodup : rs.Nodup) (h0 : 0 ≤ s.sp.toInt) (hlen : rs.length ≤ stackCount s)
    (hroom : s.sp.toInt + 4 + 4 * stackCount s ≤ 0x10000) : ∃ t, popAll rs s = .next t ∧ Popped rs s t := by
  induction rs generalizing s with
  | nil => exact ⟨s, rfl, popped_nil⟩
  | cons r rs ih =>
    rw [List.length_cons, Nat.cast_succ] at hlen
    obtain ⟨hr, hnodup⟩ := List.nodup_cons.1 hnodup
    obtain ⟨hspr, hsprs⟩ : r ≠ .sp ∧ .sp ∉ rs := by simpa [eq_comm] using hsp
    have hc : CanPop s := ⟨h0, by omega, by omega, hroom⟩
    obtain ⟨u, hu, hfirst⟩ : ∃ u, popAll (r :: rs) s = popAll rs u ∧ Popped [r] s u :=
      ⟨_, popAll_cons_ok hc, popped_singleton hspr hc⟩
    have hspu : u.sp = s.sp := hfirst.regs .sp (by simpa [eq_comm] using hspr)
    have hcount : stackCount u = stackCount s - 1 := hfirst.count
    obtain ⟨t, ht, hrest⟩ := ih (s := u) hsprs hnodup (by rwa [hspu]) (by omega) (by rw [hspu, hcount]; omega)
    exact ⟨t, hu.trans ht, hfirst.cons hrest hsp hr hlen⟩

/-! ## PUSH (R141, R142, R144) -/

theorem setMem_sameRegs : SameRegsBut [] s (s.setMem m) := fun _ _ => State.setMem_reg _ _ _

/-- Settles O37: the memory after the push, region by region. -/
theorem pushEffect : Obligations.PushEffect :=
  fun _ _ _ h => ⟨_, execPush_ok h, stackCount_pushed h, pushedMem_word_top, fun _ => pushedMem_read_shifted,
    memOutside_pushed, setMem_sameRegs, sameStatus_setMem sameStatus_refl⟩

/-- Settles O38: every check of the push comes before its first write. -/
theorem pushFaults : Obligations.PushFaults := by
  intro s ff r h
  obtain ⟨f, hf⟩ := execPush_error (r := r) h
  exact ⟨_, hf, raiseFault_faultedFrom⟩

/-- The push either fits or faults. -/
theorem exec_push_succeeds_iff (hs : s.faulted = false) :
    (∃ t, exec (.push ff r) s = .next t ∧ t.faulted = false) ↔ CanPush s := by
  refine ⟨fun ⟨t, ht, hf⟩ => ?_, fun h => ⟨_, execPush_ok h, hs⟩⟩
  by_contra hc
  obtain ⟨u, hu, -, huf, -⟩ := pushFaults s ff r hc
  cases ht.symm.trans hu
  rw [hf] at huf
  contradiction

theorem canPush_iff_count_le (h0 : 0 ≤ s.sp.toInt) (h8 : s.sp.toInt ≤ 0xFFF8) :
    CanPush s ↔ 0 ≤ stackCount s ∧ stackCount s ≤ (0x10000 - s.sp.toInt - 8) / 4 := by
  rw [Int.le_ediv_iff_mul_le (by decide), CanPush]
  omega

/-- Settles O39: the bound on the count is that of `CanPush`, solved for the count. -/
theorem stackCapacity : Obligations.StackCapacity := by
  refine fun s ff r hs => ⟨fun ⟨h0, h8⟩ => ?_, fun hsp => ?_⟩
  · rw [exec_push_succeeds_iff hs, canPush_iff_count_le h0 h8]
  · have hreset : s.sp.toInt = 0xF000 := by rw [hsp]; decide
    rw [exec_push_succeeds_iff hs, canPush_iff_count_le (by omega) (by omega), hreset]
    rfl

/-! ## POP (R143, R145) -/

/-- Settles O40: the memory after the pop, region by region, at the base the pop began with. -/
theorem popEffect : Obligations.PopEffect := by
  refine fun s ff r h => ⟨_, execPop_ok h, State.reg_setReg_same _ _ _, ?count, fun x hx hx' => ?shifted,
    memOutside_popped, fun q hq => ?regs, sameStatus_setReg (sameStatus_setMem sameStatus_refl)⟩
  case count =>
    rw [State.setReg_mem, State.setMem_mem, poppedMem_word_count]
    exact toInt_popped_count h
  case shifted =>
    rw [State.setReg_mem]
    exact poppedMem_read_shifted hx hx'
  case regs => exact (State.reg_setReg_ne _ _ _ _ (by simpa using hq)).trans (State.setMem_reg _ _ _)

/-- Settles O41: every check of the pop comes before its first write. -/
theorem popFaults : Obligations.PopFaults := by
  intro s ff r h
  obtain ⟨f, hf⟩ := execPop_error (r := r) h
  exact ⟨_, hf, raiseFault_faultedFrom⟩

/-! ## PUSH, then POP (R151) -/

theorem stackCount_congr (hm : t.mem = s.mem) (hb : stackBase t = stackBase s) : stackCount t = stackCount s := by
  rw [stackCount, hm, hb, stackCount]

/-- Settles O42: what the push moved up (O37) the pop moves down again (O40), and the two changes of the count cancel. -/
theorem pushThenPopRestores : Obligations.PushThenPopRestores := by
  intro s ff ff' r q w h
  obtain ⟨t, ht, hcount, htop, hup, hframe, hregs, -⟩ := pushEffect s ff r h
  have hsp : (t.setReg .ip w).sp = s.sp := hregs .sp List.not_mem_nil
  have hbase : stackBase (t.setReg .ip w) = stackBase s := congrArg BitVec.toNat hsp
  have hmem : (t.setReg .ip w).mem = t.mem := State.setReg_mem _ _ _
  have hcount' : stackCount (t.setReg .ip w) = stackCount s + 1 := hcount
  obtain ⟨h0, h4, hpos, hroom⟩ := h
  have hpop : CanPop (t.setReg .ip w) := by
    rw [CanPop, hsp, hcount']
    omega
  obtain ⟨u, hu, hval, hdec, hdown, hframe', hregs', -⟩ := popEffect _ ff' q hpop
  rw [hbase, hmem] at hval
  rw [hbase, hcount'] at hdec hdown hframe'
  refine ⟨t, u, ht, hu, hval.trans htop, fun p hp => ?regs, fun x hx => ?mem⟩
  case regs =>
    obtain ⟨hpq, hpip⟩ : p ∉ [q] ∧ p ≠ .ip := by simpa using hp
    rw [hregs' p hpq, State.reg_setReg_ne _ _ _ _ hpip, hregs p List.not_mem_nil]
  case mem =>
    by_cases hout : x < stackBase s ∨ stackBase s + 8 + 4 * (stackCount s).toNat ≤ x
    · rw [hframe' x (by omega), hmem, hframe x hout]
    by_cases hentry : stackBase s + 4 ≤ x
    · rw [hdown x hentry (by omega), hmem, hup (x + 4) (by omega) (by omega), Nat.add_sub_cancel]
    · have hword : u.mem.word (stackBase s) = s.mem.word (stackBase s) :=
        BitVec.eq_of_toInt_eq (hdec.trans (Int.add_sub_cancel _ _))
      obtain ⟨k, rfl⟩ := Nat.exists_eq_add_of_le (show stackBase s ≤ x by omega)
      exact Memory.read_of_word_eq hword (by omega)

/-! ## APUSH and APOP (R146, R147) -/

/-- Settles O43: the run of the four pushes, and its entries as words and as bytes. -/
theorem apushEffect : Obligations.ApushEffect := by
  intro s ⟨h0, hpos, hroom⟩
  obtain ⟨m, hrun, hcount, hentries⟩ := pushAll_fits (rs := [.edx, .ecx, .ebx, .eax]) h0 hpos (by
    simp only [List.length_cons, List.length_nil]; omega)
  have htop {k : Nat} {v : Word} (h : (s.eax :: s.ebx :: s.ecx :: s.edx :: entries s)[k]? = some v) :
      entry (s.setMem m) k = v := entry_eq_of_getElem? (hentries ▸ h)
  refine ⟨_, hrun, hcount, htop (k := 0) rfl, htop (k := 1) rfl, htop (k := 2) rfl, htop (k := 3) rfl,
    fun _ => read_of_entries_eq_append hentries rfl, ?frame, setMem_sameRegs, sameStatus_setMem sameStatus_refl⟩
  exact (pushAll_memOutside hrun).mono le_rfl (by simp only [List.length_cons, List.length_nil]; omega)

/-- Settles O44: the run of the four pops; the byte frame and the vacated slots are those of any run. -/
theorem apopEffect : Obligations.ApopEffect := by
  intro s ⟨h0, hlen, hroom⟩
  obtain ⟨t, hrun, ht⟩ := popAll_fits (rs := [.eax, .ebx, .ecx, .edx]) (by decide) (by decide) h0 hlen hroom
  have hcount : stackCount t = stackCount s - 4 := ht.count
  have hbase : stackBase t = stackBase s := ht.stackBase_eq (by decide)
  have htop {k : Nat} {v : Word} (h : (t.eax :: t.ebx :: t.ecx :: t.edx :: entries t)[k]? = some v) : v = entry s k :=
    (entry_eq_of_getElem? (ht.entries_eq ▸ h)).symm
  refine ⟨t, hrun, hcount, htop (k := 0) rfl, htop (k := 1) rfl, htop (k := 2) rfl, htop (k := 3) rfl,
    fun x hx hx' => ?shifted, fun j hj hj' => ?stale, ht.frame, ht.regs, ht.status⟩
  case shifted =>
    exact (read_of_entries_eq_append (x := x + 16) ht.entries_eq hbase.symm (by simp; omega) (by simp; omega)).symm
  case stale =>
    have h := ht.stale j hj hj'
    rw [entry, hbase, entry] at h
    rw [h]
    congr 1
    omega

/-- Settles O45: the entries APOP finds are the ones APUSH left. -/
theorem apushThenApopRestores : Obligations.ApushThenApopRestores := by
  intro s h
  obtain ⟨t, ht, hcount, heax, hebx, hecx, hedx, -, -, hregs, -⟩ := apushEffect s h
  refine ⟨t, ht, fun t' hmem hsp => ?_⟩
  have hsp' : t'.sp = s.sp := hsp.trans (hregs .sp List.not_mem_nil)
  have hbase : stackBase t' = stackBase s := congrArg BitVec.toNat hsp'
  have hcount' : stackCount t' = stackCount s + 4 :=
    (stackCount_congr hmem (congrArg BitVec.toNat hsp)).trans hcount
  obtain ⟨h0, hpos, hroom⟩ := h
  have hfour : CanPopFour t' := by
    rw [CanPopFour, hsp', hcount']
    omega
  obtain ⟨u, hu, hucount, hueax, huebx, huecx, huedx, -⟩ := apopEffect t' hfour
  rw [hmem, hbase] at hueax huebx huecx huedx
  exact ⟨u, hu, hueax.trans heax, huebx.trans hebx, huecx.trans hecx, huedx.trans hedx, by omega⟩

/-! ## APUSH and APOP are sequences (R184, decision D15) -/

/-- Instructions run in order, ended by the first that faults. -/
def execSeq : List Instr → State → Host.Outcome State Fault Refusal
  | [], s => .next s
  | i :: is, s => thenRun (exec i s) (execSeq is)

variable {o : Host.Outcome State Fault Refusal} {f g : State → Host.Outcome State Fault Refusal} {e e' : FaultInfo}

theorem thenRun_next (h : t.faulted = false) : thenRun (.next t) f = f t := by simp [thenRun, h]

theorem thenRun_raiseFault : thenRun (.next (s.raiseFault e)) f = .next (s.raiseFault e) := rfl

/-- What follows an instruction matters on the states that have not faulted. -/
theorem thenRun_congr (h : ∀ t, t.faulted = false → f t = g t) : thenRun o f = thenRun o g := by
  cases o with
  | next t => cases hf : t.faulted <;> simp [thenRun, hf, h]
  | fault | refused => rfl

theorem thenRun_exec_nil : thenRun o (execSeq []) = o := by
  cases o with
  | next t => cases hf : t.faulted <;> simp [thenRun, hf, execSeq]
  | fault | refused => rfl

/-- The machine records no cause (R180), so that two faults from one state agree. -/
theorem raiseFault_eq : s.raiseFault e = s.raiseFault e' := rfl

theorem lastValue_reg : lastValue s (.reg r) = s.reg r := by cases r <;> rfl

theorem pushAll_cons (hs : s.faulted = false) :
    pushAll (r :: rs) s = thenRun (exec (.push ff r) s) (pushAll rs) := by
  change _ = thenRun (execPush r s) _
  by_cases hc : CanPush s
  · rw [pushAll_cons_ok hc, execPush_ok hc, thenRun_next (by simpa using hs), lastValue_reg]
  · obtain ⟨e, he⟩ := pushAll_cons_error (r := r) (rs := rs) hc
    obtain ⟨e', he'⟩ := execPush_error (r := r) hc
    rw [he, he', thenRun_raiseFault, raiseFault_eq]

theorem popAll_cons (hs : s.faulted = false) :
    popAll (r :: rs) s = thenRun (exec (.pop ff r) s) (popAll rs) := by
  change _ = thenRun (execPop r s) _
  by_cases hc : CanPop s
  · rw [popAll_cons_ok hc, execPop_ok hc, thenRun_next (by simpa using hs)]
  · obtain ⟨e, he⟩ := popAll_cons_error (r := r) (rs := rs) hc
    obtain ⟨e', he'⟩ := execPop_error (r := r) hc
    rw [he, he', thenRun_raiseFault, raiseFault_eq]

theorem pushAll_eq_execSeq (hs : s.faulted = false) : pushAll rs s = execSeq (rs.map (.push ff)) s := by
  induction rs generalizing s with
  | nil => rfl
  | cons r rs ih => exact (pushAll_cons hs).trans (thenRun_congr fun _ ht => ih ht)

theorem popAll_eq_execSeq (hs : s.faulted = false) : popAll rs s = execSeq (rs.map (.pop ff)) s := by
  induction rs generalizing s with
  | nil => rfl
  | cons r rs ih => exact (popAll_cons hs).trans (thenRun_congr fun _ ht => ih ht)

/-- A sequence of four, as nested runs. -/
theorem execSeq_four {i₁ i₂ i₃ i₄ : Instr} : execSeq [i₁, i₂, i₃, i₄] s =
    thenRun (exec i₁ s) fun s => thenRun (exec i₂ s) fun s => thenRun (exec i₃ s) (exec i₄) := by
  have hlast : execSeq [i₄] = exec i₄ := funext fun _ => thenRun_exec_nil
  rw [← hlast]
  rfl

/-- Settles O46: a run is the sequence of its instructions, each fault being taken where the sequence takes it. -/
theorem apushApopAreSequences : Obligations.ApushApopAreSequences :=
  fun _ _ hs => ⟨(pushAll_eq_execSeq hs).trans execSeq_four, (popAll_eq_execSeq hs).trans execSeq_four⟩

end Sys2Proof.Machine
end

section
/-! JMP and the conditional jumps: JMP writes `ip`, a conditional jump writes it or nothing, and each of the four tests is a
signed comparison with zero. -/

namespace Sys2Proof.Machine

variable {s : State} {d v : Operand} {w : Word}

/-- Settles O47: the write of `ip`, and its frame. -/
theorem jmpGoesToItsDestination : Obligations.JmpGoesToItsDestination :=
  fun _ _ _ h => regsOnly_of_exec_eq_setReg (execJmp_eq h) (r := .ip)

/-! ## The tests (R162 to R165) -/

theorem condJez_iff : condJez w ↔ w.toInt = 0 := beq_iff_eq

theorem condJnz_iff : condJnz w ↔ w.toInt ≠ 0 := bne_iff_ne

theorem condJlz_iff : condJlz w ↔ w.toInt < 0 := decide_eq_true_iff

theorem condJgz_iff : condJgz w ↔ w.toInt > 0 := decide_eq_true_iff

/-! ## The form common to the four (R161) -/

theorem regsOnly_refl {rs : List Reg} : RegsOnly rs s s := ⟨fun _ _ => rfl, sameStatus_refl, rfl⟩

/-- A conditional jump whose test is `P` goes to its destination where `P` holds, and changes nothing else. -/
theorem condJump_goes_iff {cond : Word → Bool} {P : Word → Prop} [DecidablePred P] (hP : ∀ {w}, cond w ↔ P w)
    (hd : Readable d) (hv : Readable v) :
    ∃ t, condJump cond d v s = .next t ∧ RegsOnly [.ip] s t ∧
      t.ip = if P (lastValue s v) then firstValue s d v else s.ip := by
  rw [condJump_eq hd hv]
  by_cases h : P (lastValue s v)
  · rw [if_pos (hP.2 h), if_pos h]
    exact ⟨_, rfl, setReg_regsOnly, State.reg_setReg_same s .ip _⟩
  · rw [if_neg (hP.not.2 h), if_neg h]
    exact ⟨s, rfl, regsOnly_refl, rfl⟩

/-- Settles O48: the common form, with the test of each. -/
theorem conditionalJumps : Obligations.ConditionalJumps :=
  fun _ _ _ _ hd hv => ⟨condJump_goes_iff condJez_iff hd hv, condJump_goes_iff condJnz_iff hd hv,
    condJump_goes_iff condJlz_iff hd hv, condJump_goes_iff condJgz_iff hd hv⟩

end Sys2Proof.Machine
end

section
/-! HLT halts and does nothing else; no instruction reads the status flags, so that runs which begin alike but for the
flags end alike but for the flags. -/

namespace Sys2Proof.Machine

variable {s t : State} {r : Reg} {rs : List Reg} {v e : Word} {o d val src dst : Operand} {h f : Bool}

/-- Settles O27: the next state is the halted one, which has no step. -/
theorem hltHalts : Obligations.HltHalts :=
  fun s => ⟨s.halt, rfl, rfl, step_halted s.halt_halted⟩

/-! ## Other status flags in a state -/

/-- The state with other status flags. -/
def State.withStatus (h f : Bool) (s : State) : State := { s with halted := h, faulted := f }

@[simp] theorem State.withStatus_reg : (s.withStatus h f).reg r = s.reg r := by cases r <;> rfl

@[simp] theorem State.withStatus_mem : (s.withStatus h f).mem = s.mem := rfl

theorem State.withStatus_setMem {m : Memory} : (s.withStatus h f).setMem m = (s.setMem m).withStatus h f := rfl

@[simp] theorem State.withStatus_setReg : (s.withStatus h f).setReg r v = (s.setReg r v).withStatus h f := by
  cases r <;> rfl

@[simp] theorem eval_withStatus : eval (s.withStatus h f) e o = eval s e o := by
  cases o <;> simp [eval]

@[simp] theorem arithOld_withStatus : arithOld (s.withStatus h f) r val = arithOld s r val := by
  simp only [arithOld, State.withStatus_reg]
  rfl

/-! ## Outcomes that agree but for the status flags (R173) -/

/-- Where the first outcome is a next state, so is the second, with the same registers and memory. -/
def AgreeButStatus (o o' : Host.Outcome State Fault Refusal) : Prop :=
  ∀ t, o = .next t → ∃ t', o' = .next t' ∧ (∀ r, t'.reg r = t.reg r) ∧ t'.mem = t.mem

theorem agreeButStatus_next {t' : State} (hr : ∀ r, t'.reg r = t.reg r) (hm : t'.mem = t.mem) :
    AgreeButStatus (.next t) (.next t') := by
  rintro _ ⟨⟩
  exact ⟨t', rfl, hr, hm⟩

theorem agreeButStatus_withStatus : AgreeButStatus (.next t) (.next (t.withStatus h f)) :=
  agreeButStatus_next (fun _ => State.withStatus_reg) rfl

/-- Two faults set both flags and draw `ip` at the same counter. -/
theorem agreeButStatus_raiseFault {i i' : FaultInfo} :
    AgreeButStatus (.next (s.raiseFault i)) (.next ((s.withStatus h f).raiseFault i')) :=
  agreeButStatus_next (fun r => by cases r <;> rfl) rfl

/-- A check that does not read the flags either faults in both runs or goes on in both with the same answer. -/
theorem agreeButStatus_finish_bind {α : Type} {x : Except FaultInfo α} {k k' : α → Except FaultInfo State}
    (hk : ∀ a, AgreeButStatus (finish s (k a)) (finish (s.withStatus h f) (k' a))) :
    AgreeButStatus (finish s (x >>= k)) (finish (s.withStatus h f) (x >>= k')) := by
  cases x with
  | ok a => exact hk a
  | error i => exact agreeButStatus_raiseFault

/-! ## Each form of instruction -/

theorem agreeButStatus_execMov : AgreeButStatus (execMov dst src s) (execMov dst src (s.withStatus h f)) := by
  simp only [execMov, eval_withStatus]
  refine agreeButStatus_finish_bind fun v => ?_
  cases dst with
  | reg r =>
    simp only [movWrite, State.withStatus_setReg]
    exact agreeButStatus_withStatus
  | const a => exact agreeButStatus_finish_bind fun _ => agreeButStatus_withStatus
  | mem a => exact agreeButStatus_raiseFault

theorem agreeButStatus_execArith {g : Word → Word → Except FaultInfo Word} :
    AgreeButStatus (execArith g r val s) (execArith g r val (s.withStatus h f)) := by
  simp only [execArith, eval_withStatus, arithOld_withStatus, State.withStatus_setReg]
  exact agreeButStatus_finish_bind fun _ => agreeButStatus_finish_bind fun _ => agreeButStatus_withStatus

theorem agreeButStatus_execJmp : AgreeButStatus (execJmp d s) (execJmp d (s.withStatus h f)) := by
  simp only [execJmp, eval_withStatus]
  exact agreeButStatus_finish_bind fun _ => agreeButStatus_withStatus

theorem agreeButStatus_condJump {cond : Word → Bool} :
    AgreeButStatus (condJump cond d val s) (condJump cond d val (s.withStatus h f)) := by
  simp only [condJump, eval_withStatus]
  refine agreeButStatus_finish_bind fun _ => agreeButStatus_finish_bind fun w => ?_
  cases cond w <;> exact agreeButStatus_withStatus

/-- A run of pushes: whether each push fits is a matter of SP and memory. -/
theorem agreeButStatus_pushAll : AgreeButStatus (pushAll rs s) (pushAll rs (s.withStatus h f)) := by
  induction rs generalizing s with
  | nil => exact agreeButStatus_withStatus
  | cons r rs ih =>
    by_cases hc : CanPush s
    · have hc' : CanPush (s.withStatus h f) := hc
      rw [pushAll_cons_ok hc, pushAll_cons_ok hc', State.withStatus_reg, State.withStatus_setMem]
      exact ih
    · have hc' : ¬ CanPush (s.withStatus h f) := hc
      obtain ⟨i, hi⟩ := pushAll_cons_error (r := r) (rs := rs) hc
      obtain ⟨i', hi'⟩ := pushAll_cons_error (r := r) (rs := rs) hc'
      rw [hi, hi']
      exact agreeButStatus_raiseFault

/-- The same for a run of pops. -/
theorem agreeButStatus_popAll : AgreeButStatus (popAll rs s) (popAll rs (s.withStatus h f)) := by
  induction rs generalizing s with
  | nil => exact agreeButStatus_withStatus
  | cons r rs ih =>
    by_cases hc : CanPop s
    · have hc' : CanPop (s.withStatus h f) := hc
      rw [popAll_cons_ok hc, popAll_cons_ok hc', State.withStatus_setMem, State.withStatus_setReg]
      exact ih
    · have hc' : ¬ CanPop (s.withStatus h f) := hc
      obtain ⟨i, hi⟩ := popAll_cons_error (r := r) (rs := rs) hc
      obtain ⟨i', hi'⟩ := popAll_cons_error (r := r) (rs := rs) hc'
      rw [hi, hi']
      exact agreeButStatus_raiseFault

/-- PUSH is a run of one push. -/
theorem execPush_eq_pushAll : execPush r s = pushAll [r] s := by
  have hr : eval s (lastEnd s) (.reg r) = .ok (s.reg r) := by cases r <;> rfl
  simp only [execPush, hr, ok_bind, pushAll]
  cases push (s.reg r) s <;> rfl

/-- POP is a run of one pop. -/
theorem execPop_eq_popAll : execPop r s = popAll [r] s := by
  simp only [execPop, popAll]
  cases pop s <;> rfl

/-- Settles O51: form by form, the two runs make the same checks and the same writes. -/
theorem statusFlagsAreNotRead : Obligations.StatusFlagsAreNotRead := by
  intro i s t h f
  suffices hagree : AgreeButStatus (exec i s) (exec i (s.withStatus h f)) from hagree t
  cases i with
  | nop | hwid | int => exact agreeButStatus_withStatus
  | hlt => exact agreeButStatus_next (fun r => by simp) rfl
  | mov => exact agreeButStatus_execMov
  | add | sub | mul | div => exact agreeButStatus_execArith
  | jmp => exact agreeButStatus_execJmp
  | jez | jnz | jlz | jgz => exact agreeButStatus_condJump
  | push ff r =>
    change AgreeButStatus (execPush r s) (execPush r (s.withStatus h f))
    rw [execPush_eq_pushAll, execPush_eq_pushAll]
    exact agreeButStatus_pushAll
  | pop ff r =>
    change AgreeButStatus (execPop r s) (execPop r (s.withStatus h f))
    rw [execPop_eq_popAll, execPop_eq_popAll]
    exact agreeButStatus_popAll
  | apush => exact agreeButStatus_pushAll
  | apop => exact agreeButStatus_popAll

end Sys2Proof.Machine
end

section
/-! Every step keeps the invariant; a fault of any instruction but APUSH and APOP leaves the state it began in; and what the
host sees of a halted machine. -/

namespace Sys2Proof.Machine

variable {s t : State} {i : Instr} {r : Reg} {v : Word} {b : Byte} {f : FaultInfo} {a n : Nat}

/-! ## The invariant under each elementary effect (R43, R183) -/

theorem inv_setReg (h : s.Inv) : (s.setReg r v).Inv := by simpa [State.Inv] using h

theorem inv_write (h : s.Inv) (ha : a < Config.memSize) : (s.setMem (s.mem.write a b)).Inv :=
  ⟨Memory.wf_write h.1 ha, h.2⟩

theorem toInt_sp_eq_stackBase (h : 0 ≤ s.sp.toInt) : s.sp.toInt = stackBase s := toInt_of_nonneg h

/-- A push that fits writes inside memory. -/
theorem inv_pushed (h : s.Inv) (hc : CanPush s) :
    (s.setMem (pushedMem s.mem (stackBase s) (stackCount s).toNat v)).Inv := by
  obtain ⟨h0, -, hcount, hroom⟩ := hc
  rw [toInt_sp_eq_stackBase h0] at hroom
  exact ⟨pushedMem_wf h.1 (by simp only [Config.memSize]; omega), h.2⟩

/-- A pop that fits writes inside memory. -/
theorem inv_popped (h : s.Inv) (hc : CanPop s) :
    (s.setMem (poppedMem s.mem (stackBase s) (stackCount s).toNat)).Inv := by
  obtain ⟨h0, -, hcount, hroom⟩ := hc
  rw [toInt_sp_eq_stackBase h0] at hroom
  exact ⟨poppedMem_wf h.1 (by simp only [Config.memSize]; omega), h.2⟩

theorem inv_halt (h : s.Inv) : s.halt.Inv := ⟨h.1, fun _ => rfl⟩

theorem inv_raiseFault (h : s.Inv) : (s.raiseFault f).Inv := ⟨h.1, fun _ => rfl⟩

theorem inv_wrapIp (h : s.Inv) : (wrapIp s).Inv := by simpa [State.Inv] using h

theorem inv_advance (h : s.Inv) : (advance n s).Inv := inv_setReg h

/-! ## The invariant under an instruction and under a step -/

theorem exec_preserves_inv (hs : s.Inv) (h : exec i s = .next t) : t.Inv :=
  exec_preserves (fun _ _ _ => inv_setReg) (fun _ _ _ => inv_write) (fun _ _ => inv_pushed) (fun _ => inv_popped)
    (fun _ => inv_halt) (fun _ _ => inv_raiseFault) hs h

/-- Settles O20: a step is the wrap and the advance of `ip`, then an instruction, or the fault of the decode. -/
theorem stepKeepsTheInvariant : Obligations.StepKeepsTheInvariant := by
  intro s t hs h
  obtain ⟨-, ⟨i, -, hexec⟩ | ⟨f, -, rfl⟩⟩ := step_cases h
  · exact exec_preserves_inv (inv_advance (inv_wrapIp hs)) hexec
  · exact inv_raiseFault (inv_wrapIp hs)

/-! ## Precise faults (R184) -/

/-- Settles O24: of all that such an instruction can do, only the fault taken from `s` itself sets `faulted`. -/
theorem faultsArePrecise : Obligations.FaultsArePrecise := by
  intro i s t hi hi' hs h ht
  have hne (hf : t.faulted = s.faulted) : FaultedFrom s t := absurd (ht.symm.trans (hf.trans hs)) (by decide)
  rcases exec_cases hi hi' h with rfl | ⟨-, rfl⟩ | ⟨r, -, w, rfl⟩ | ⟨a, b, -, -, rfl⟩ | ⟨w, -, -, rfl⟩ |
    ⟨r, -, -, -, rfl⟩ | ⟨f, rfl⟩
  · exact hne rfl
  · exact hne (State.halt_faulted _)
  · exact hne (State.setReg_faulted _ _ _)
  · exact hne (State.setMem_faulted _ _)
  · exact hne (State.setMem_faulted _ _)
  · exact hne (State.setReg_faulted _ _ _)
  · exact raiseFault_faultedFrom

/-! ## What the host observes (R190, R206) -/

theorem observe_running (h : s.halted = false) : observe s = none := by simp [observe, h]

theorem observe_halted (h : s.halted = true) : observe s = some (s.faulted, s.dump) := if_pos h

theorem State.dump_mem : s.dump.mem = s.mem.readBytes 0 Config.memSize := rfl

theorem getElem?_dump_mem (ha : a < Config.memSize) : s.dump.mem[a]? = some (s.mem.read a) := by
  rw [State.dump_mem, Memory.getElem?_readBytes ha, Nat.zero_add]

/-- Settles O56: the dump has the registers as fields and the bytes of memory from address 0 on. -/
theorem dumpContent : Obligations.DumpContent :=
  fun _ => ⟨observe_running, fun h =>
    ⟨_, observe_halted h, rfl, rfl, rfl, rfl, rfl, rfl, Memory.length_readBytes, fun _ => getElem?_dump_mem⟩⟩

end Sys2Proof.Machine
end

section
/-! The machine right after reset and right after loading: the invariant's base case, the images that fit and the images
that are refused. -/

namespace Sys2Proof.Machine

variable {s : State} {image : List Byte} {x : Nat}

/-- Settles O19: reset memory lists no byte, and reset has no fault. -/
theorem resetMeetsTheInvariant : Obligations.ResetMeetsTheInvariant :=
  ⟨Memory.wf_nil, fun hfault => absurd hfault Bool.false_ne_true⟩

/-! ## Loading (R200, R201) -/

theorem load_of_fits (h : image.length ≤ Config.memSize) :
    load image = some (State.reset.setMem (Memory.writeBytes [] 0 image)) := if_pos h

theorem load_of_oversized (h : Config.memSize < image.length) : load image = none := if_neg h.not_ge

theorem read_load_inside (h : load image = some s) (hx : x < image.length) : s.mem.read x = image[x] := by
  rw [read_load h, List.getD_eq_getElem _ _ hx]

theorem read_load_beyond (h : load image = some s) (hx : image.length ≤ x) : s.mem.read x = 0 := by
  rw [read_load h, List.getD_eq_default _ _ hx]

/-- Settles O54: loading only stores the image in reset memory, so registers and status flags are those of reset. -/
theorem loadedMachineIsReset : Obligations.LoadedMachineIsReset := by
  intro image hfits
  have hload := load_of_fits hfits
  exact ⟨_, hload, rfl, rfl, rfl, rfl, rfl, rfl, rfl, rfl, fun _ => read_load_inside hload, fun _ => read_load_beyond hload⟩

/-- Settles O55: an image that does not fit fails the only check that `load` makes. -/
theorem oversizedImageIsRefused : Obligations.OversizedImageIsRefused := fun _ => load_of_oversized

end Sys2Proof.Machine
end
